-- ==== Sys2Proof/Word.lean ====
section
/-! DEFINITION. The word types of the brief executor (spec 00_scope.md R8, R9; 10_state.md R15).
Bit vectors stand only for what the spec gives a width in bits and reads as bits: the instruction word,
its operand field, the 32-bit registers, a stream byte. A cell and the two value bounds are exact signed
integers (R8, R10, R77): the spec's arithmetic on them never wraps. -/

namespace Sys2Proof

/-- A 32-bit word: an instruction word and the 32-bit registers. -/
abbrev Word := BitVec 32

/-- The 29-bit operand field of an instruction, and the width of `REP` (R22, R56). -/
abbrev Opnd := BitVec 29

/-- One byte of the input or the output stream (R37). -/
abbrev Byte := BitVec 8

end Sys2Proof
end

