-- ==== Sys2Proof/Syntax.lean ====
section
/-! DEFINITION. The eight instructions (30_encoding.md R57), one constructor a row of the opcode table. The
operand is the 29-bit field `OPND` as the word carries it: a count `n` (R58) or a target index `t` (R59). -/

namespace Sys2Proof

/-- The instruction set of the brief executor (R2, R57). -/
inductive Instr where
  /-- `+`: add `n` to the current cell (R84). -/
  | incValue (n : Opnd)
  /-- `-`: subtract `n` from the current cell (R85). -/
  | decValue (n : Opnd)
  /-- `>`: move the cell pointer `n` cells up (R89). -/
  | incPointer (n : Opnd)
  /-- `<`: move the cell pointer `n` cells down (R90). -/
  | decPointer (n : Opnd)
  /-- `,`: take `n` input tokens, one a beat (R93). -/
  | read (n : Opnd)
  /-- `.`: emit the current cell's low byte `n` times, one a beat (R95). -/
  | write (n : Opnd)
  /-- `[`: skip past index `t` when the current cell is zero (R97). -/
  | loopOpen (t : Opnd)
  /-- `]`: go back past index `t` when the current cell is not zero (R98). -/
  | loopClose (t : Opnd)
deriving DecidableEq, Repr

/-- The operand field of an instruction (R56). -/
def Instr.operand : Instr → Opnd
  | .incValue n => n
  | .decValue n => n
  | .incPointer n => n
  | .decPointer n => n
  | .read n => n
  | .write n => n
  | .loopOpen t => t
  | .loopClose t => t

end Sys2Proof
end

