-- ==== Sys2Proof/Decode.lean ====
section
/-! DEFINITION. Decoding and encoding (30_encoding.md R56 to R60, R63; 20_memory.md R47 for the byte file). Decoding is
total on 32-bit words: all eight opcodes are assigned (R57, R62), and whether a word is legal is a question
for the step that executes it (R61). Only a byte file can be refused: one whose length is no whole number of words. -/

namespace Sys2Proof

/-- `OPC`, bits [31:29] of the word (R56). -/
def opcField (w : Word) : BitVec 3 := w.extractLsb' 29 3

/-- `OPND`, bits [28:0] of the word (R56). -/
def opndField (w : Word) : Opnd := w.extractLsb' 0 29

/-- The opcode map of R57: `OPC` 0 to 7 in the table's order. The last arm is `OPC` = 7, the only value left
of a 3-bit field. -/
def ofOpcode (opc : BitVec 3) (opnd : Opnd) : Instr :=
  match opc.toNat with
  | 0 => .incValue opnd
  | 1 => .decValue opnd
  | 2 => .incPointer opnd
  | 3 => .decPointer opnd
  | 4 => .read opnd
  | 5 => .write opnd
  | 6 => .loopOpen opnd
  | _ => .loopClose opnd

/-- R60: every 32-bit word names exactly one instruction. -/
def decode (w : Word) : Instr := ofOpcode (opcField w) (opndField w)

/-- The opcode number of an instruction (R57). -/
def Instr.opcode : Instr → BitVec 3
  | .incValue _ => 0#3
  | .decValue _ => 1#3
  | .incPointer _ => 2#3
  | .decPointer _ => 3#3
  | .read _ => 4#3
  | .write _ => 5#3
  | .loopOpen _ => 6#3
  | .loopClose _ => 7#3

/-- The word of an instruction, the concatenation of `OPC` (high) and `OPND` (low) (R9, R56). -/
def encode (i : Instr) : Word := i.opcode ++ i.operand

/-- Why a byte file is no image. -/
inductive DecodeError where
  /-- The file ends inside a 32-bit word (R47, R63). -/
  | truncatedWord
deriving DecidableEq, Repr

/-- The little-endian bytes of a word, bits [7:0] first (R47). -/
def wordBytes (w : Word) : List Byte :=
  [w.extractLsb' 0 8, w.extractLsb' 8 8, w.extractLsb' 16 8, w.extractLsb' 24 8]

/-- The word of four little-endian bytes (R47). -/
def wordOfBytes (b0 b1 b2 b3 : Byte) : Word := b3 ++ b2 ++ b1 ++ b0

/-- One instruction from the front of a byte file, with the bytes that follow it (R47, R63). -/
def decodeBytes : List Byte → Except DecodeError (Instr × List Byte)
  | b0 :: b1 :: b2 :: b3 :: rest => .ok (decode (wordOfBytes b0 b1 b2 b3), rest)
  | _ => .error .truncatedWord

/-- The words of a byte file, in index order (R47). -/
def imageOfBytes : List Byte → Except DecodeError (List Word)
  | [] => .ok []
  | b0 :: b1 :: b2 :: b3 :: rest =>
    match imageOfBytes rest with
    | .ok ws => .ok (wordOfBytes b0 b1 b2 b3 :: ws)
    | .error e => .error e
  | _ => .error .truncatedWord

/-- The byte file of an image (R47). -/
def bytesOfImage (ws : List Word) : List Byte := ws.flatMap wordBytes

/-- The instruction the decoder reads from an opcode-table word: one 32-bit word (R63), so a row of more bits
than that, or a number that does not fit its row, names no instruction. -/
def decodeTableWord (nbits w : Nat) : Option Instr :=
  if nbits ≤ 32 ∧ w < 2 ^ nbits then some (decode (BitVec.ofNat 32 w)) else none

end Sys2Proof
end

