-- ==== Sys2Proof/Config.lean ====
section
/-! DEFINITION. What an implementation of the block fixes (00_scope.md R6) and the values the spec leaves free
(93_implementation_defined.md). The parameters are a record of plain numbers that the machine carries
along (log entry 1), so that a statement about the machine speaks of every instance of the block. -/

namespace Sys2Proof

/-- The implementation parameters of R6. `W_OPND` is no parameter here: R6 fixes it at 29. -/
structure Params where
  /-- `W_CELL`: the width in bits of a cell and of the two value bounds. -/
  wCell : Nat
  /-- `IMEM_DEPTH`: the number of instruction words. -/
  imemDepth : Nat
  /-- `TAPE_DEPTH`: the number of cells. -/
  tapeDepth : Nat
  /-- `HOST_W`: the width in bits of the host register port. -/
  hostW : Nat
deriving DecidableEq, Repr

/-- The constraints R6 puts on the parameters. -/
def Params.ok (p : Params) : Bool :=
  decide (9 ≤ p.wCell) && decide (1 ≤ p.imemDepth) && decide (p.imemDepth ≤ 2 ^ 29) &&
    decide (1 ≤ p.tapeDepth) && decide (p.tapeDepth ≤ 2 ^ 32 - 1) &&
    decide (32 ≤ p.hostW) && decide (p.wCell ≤ p.hostW)

/-- R6's default instance. -/
def Params.default : Params :=
  { wCell := 32, imemDepth := 65536, tapeDepth := 32768, hostW := 32 }

/-- One token of the input stream (R40). -/
inductive Token where
  | byte (b : Byte)
  | eof
deriving DecidableEq, Repr, Inhabited

/-- The free draws of 93_implementation_defined.md U2, U3, U4 and U5: draw number `k` is some number, and nothing says
which. A place that needs a value of some width takes it from the draw by a remainder. -/
opaque Config.freeBits : Nat → Nat

/-- The endless input sequences a host may offer, numbered: token `k` of sequence `i` is some token, and nothing says
which (R119 P5, 93_implementation_defined.md U6). What is proved of sequence `i` holds of every endless sequence of tokens. -/
opaque Config.hostToken : Nat → Nat → Token

end Sys2Proof
end

