-- ==== Sys2Proof/Machine/State.lean ====
section
/-! DEFINITION. The state of the block as plain data: everything 10_state.md R15 lists, and beside it what the model
itself needs: the instance's parameters (log entry 1) and the outside world's side of the streams and of
the host's accesses (log entries 3 to 6). -/

namespace Sys2Proof.Machine

/-- `STATE` (R23). All four 2-bit values are named, so the names stand for the field. -/
inductive RunState where
  | idle
  | running
  | done
  | fault
deriving DecidableEq, Repr

/-- A boundary policy (R29, fields `VP` and `PP`). The reserved encoding is no policy. -/
inductive Policy where
  | error
  | saturate
  | wrap
deriving DecidableEq, Repr

/-- An EOF policy (R29, field `EP`). The reserved encodings are no policy. -/
inductive EofPolicy where
  | zero
  | minValue
  | maxValue
  | negativeOne
  | noChange
deriving DecidableEq, Repr

/-- The direction of a value or pointer operation (R78). -/
inductive Dir where
  | up
  | down
deriving DecidableEq, Repr

/-- What the policy function answers (R78). `reserved` stands for a policy field that holds no policy, which START
keeps from ever reaching the function. -/
inductive PolicyResult where
  | ok (v : Int)
  | err
  | reserved
deriving DecidableEq, Repr

/-- The fault codes a step or a START records (R102). -/
inductive FaultCode where
  | valueRange
  | pointerRange
  | configuration
  | illegalInstruction
deriving DecidableEq, Repr

/-- What the host offers once the tokens it queued are taken (R42, R119 P5). -/
inductive Source where
  /-- The tokens of `period` over and over: nothing at all for the empty list, `EOF` for ever for `EOF` alone. -/
  | repeating (period : List Token)
  /-- Endless sequence number `stream` of `Config.hostToken`, from its token number `next` on. -/
  | endless (stream next : Nat)
deriving DecidableEq, Repr

/-- A host with no token to offer but those it queues (R41). -/
def Source.silent : Source := .repeating []

/-- An exhausted source: `EOF` for every further request (R42). -/
def Source.exhausted : Source := .repeating [.eof]

/-- The two memories (R37). Each is a list of index and value with strictly rising indexes. The unit is the spec's
own smallest, a whole word or a whole cell: no byte-addressed memory exists (R37, R47; log entry 2). -/
structure Memory where
  /-- `IMEM`: the words written since power-on. A word not listed was never written and has no value (R36). -/
  imem : List (Nat × Word)
  /-- `TAPE`: the cells that do not hold 0. A cell not listed holds 0, if its content is specified at all. -/
  tape : List (Nat × Int)
  /-- How many cells the last START that began a run cleared: the contents of the cells at or above this index are
  unspecified (R20, R36). -/
  tapeLive : Nat
deriving DecidableEq, Repr

/-- What the host can do to the block (R34, R40, R44, R46, R116). -/
inductive HostAction where
  /-- Write `value` to the register at byte offset `offset` (R34); START is such a write (R30). -/
  | writeReg (offset value : Nat)
  /-- Read the register at byte offset `offset` (R34). -/
  | readReg (offset : Nat)
  /-- Write `IMEM[index]` through the image port (R46). -/
  | writeImage (index : Nat) (word : Word)
  /-- Read `IMEM[index]` through the image port (R46). -/
  | readImage (index : Nat)
  /-- Read `TAPE[index]` through the tape port (R46). -/
  | readTape (index : Nat)
  /-- Offer one more input token (R40). -/
  | offer (t : Token)
  /-- Choose what is offered to every request the queued tokens do not serve (R42, R119 P5). -/
  | supply (source : Source)
  /-- Begin or stop accepting output bytes (R44). -/
  | accept (ready : Bool)
  /-- Assert reset (R116). -/
  | reset
deriving DecidableEq, Repr

/-- Who takes the next indivisible step (R49): the executor or the host. -/
inductive Turn where
  | executor
  | host (a : HostAction)
deriving DecidableEq, Repr

/-- The outside world's side of the interfaces, and what the model records of it. None of it is the block's state. -/
structure Env where
  /-- The turns still to come, first one first; with none left every turn is the executor's (log entry 4). -/
  turns : List Turn
  /-- The tokens the host has offered and no beat has taken, oldest first (R40). -/
  input : List Token
  /-- What the host offers with no token of `input` left (R42); the input may be infinite (R119 P5). -/
  source : Source
  /-- Whether the host accepts an output byte now (R44). -/
  ready : Bool
  /-- Every byte emitted since power-on, oldest first (R43, R45). -/
  output : List Byte
  /-- How many tokens were consumed since power-on (R83). -/
  consumed : Nat
  /-- `output.length` at the last START: a run's output is what follows (R83). -/
  outputMark : Nat
  /-- `consumed` at the last START (R83). -/
  consumedMark : Nat
  /-- `CELL_COUNT` at the last START: the cells a run's observation shows (R83). -/
  runCells : Nat
  /-- The values of (`PC`, `PTR`) at the step boundaries of the current run, without repeats (R32). -/
  held : List (Word × Word)
  /-- What the host's reads returned, oldest first (R34, R46). -/
  replies : List Nat
  /-- How many free draws were made: the number of the next one (93_implementation_defined.md). -/
  draws : Nat
deriving DecidableEq, Repr

/-- The state of the machine (R15), with the instance's parameters and the outside world. -/
structure State where
  /-- The instance's parameters (R6); no step changes them. -/
  params : Params
  /-- `IMEM` and `TAPE`. -/
  mem : Memory
  /-- `STATE` (R23). -/
  runState : RunState
  /-- `PC`, the instruction cursor (R18). -/
  pc : Word
  /-- `PTR`, the cell pointer (R19). -/
  ptr : Word
  /-- `REP`, the hidden beat counter (R22). -/
  rep : BitVec 29
  /-- `VALUE_MIN`, signed, `W_CELL` bits wide (R25). -/
  valueMin : Int
  /-- `VALUE_MAX`, signed, `W_CELL` bits wide (R26). -/
  valueMax : Int
  /-- `CELL_COUNT` (R27). -/
  cellCount : Word
  /-- `PROG_LEN` (R28). -/
  progLen : Word
  /-- `POLICY`: `VP` in [1:0], `PP` in [3:2], `EP` in [6:4] (R29). -/
  policy : Word
  /-- `FAULT_CODE` (R31, R102). -/
  faultCode : BitVec 4
  /-- `FAULT_PC` (R33). -/
  faultPc : Word
  /-- `FAULT_INFO` (R33). -/
  faultInfo : Word
  /-- The outside world. -/
  env : Env
deriving DecidableEq, Repr

/-- Why the MODEL stops. The hardware's own faults are not here: a step takes them (R104) and goes on to a state whose
`STATE` is FAULT. -/
inductive Fault where
  /-- The executor's turn fetches an index below `PROG_LEN` that was never written. Raised by the fetch alone; the spec
  asks for it (92_eei_decisions.md D30, 93 U3: "the model faults on fetching an unwritten word"). Safe. -/
  | unloadedWord
  /-- An instruction uses `TAPE[PTR]` where the last START cleared no such cell, so that its content is unspecified
  (R20, R36). Raised by `IncValue`, `DecValue`, `Read`, `Write`, `LoopOpen` and `LoopClose`, and by none of them in a
  state the block reaches (R19, R39). Safe. -/
  | tapeOutOfRun
  /-- A policy field holds a reserved encoding where an instruction needs a policy. Raised by `IncValue`, `DecValue`,
  `IncPointer`, `DecPointer` and `Read`, and by none of them in a state the block reaches, since START faults on such a
  field (R78, R94, R103). Safe. -/
  | reservedPolicy
deriving DecidableEq, Repr

/-- Why the model gives no meaning. -/
inductive Refusal where
  /-- An instruction whose meaning is not written yet; raised by no arm of `exec` today. Safe. -/
  | notModelled (mnemonic : String)
deriving DecidableEq, Repr

/-- No turn planned, nothing offered, nothing accepted, nothing recorded (log entry 6). -/
def Env.initial : Env :=
  { turns := [], input := [], source := Source.silent, ready := false, output := [], consumed := 0
    outputMark := 0, consumedMark := 0, runCells := 0, held := [], replies := [], draws := 0 }

/-- No word written and no cell cleared: the contents after power-on are unspecified (R36). -/
def Memory.powerOn : Memory := { imem := [], tape := [], tapeLive := 0 }

/-- The machine right after a power-on reset (R36, R116), in R6's default instance. -/
def State.reset : State :=
  { params := Params.default
    mem := Memory.powerOn
    runState := .idle
    pc := 0#32
    ptr := 0#32
    rep := 0#29
    valueMin := 0
    valueMax := 255
    cellCount := 30000#32
    progLen := 0#32
    policy := 0x00000002#32
    faultCode := 0#4
    faultPc := 0#32
    faultInfo := 0#32
    env := Env.initial }

end Sys2Proof.Machine
end

