-- ==== Sys2Proof/Machine/Flags.lean ====
section
/-! DEFINITION. The conditions the block computes. It has no status flags (10_state.md R17): the zero test of a cell and
the range test of a candidate are made where they are used, and nothing records them. -/

namespace Sys2Proof.Machine

/-- The zero test of the loop brackets: the whole cell, not its low byte (R17). -/
def cellIsZero (v : Int) : Bool := decide (v = 0)

/-- The range test of the policy function, both bounds included (R78). -/
def inRange (lo hi cand : Int) : Bool := decide (lo ≤ cand) && decide (cand ≤ hi)

/-- The two bits of `STATE` (R23). -/
def RunState.bits : RunState → BitVec 2
  | .idle => 0#2
  | .running => 1#2
  | .done => 2#2
  | .fault => 3#2

/-- `STATUS.EXIT`: 1 exactly when `STATE` is FAULT (R31). -/
def RunState.exitBit : RunState → BitVec 1
  | .idle => 0#1
  | .running => 0#1
  | .done => 0#1
  | .fault => 1#1

/-- The output `HALTED`: `STATE` is DONE or FAULT (R108). -/
def RunState.halted : RunState → Bool
  | .idle => false
  | .running => false
  | .done => true
  | .fault => true

end Sys2Proof.Machine
end

