-- ==== Sys2Proof/Machine/Operands.lean ====
section
/-! DEFINITION. What the instructions compute from their operands: the exact candidate (40_cycle.md R77), the policy
function (R78 to R82), the value of an input token (43_io.md R93, R94), a byte of a cell (00_scope.md R9), and the
numbers of the host ports (10_state.md R34, 20_memory.md R46). -/

namespace Sys2Proof.Machine

/-- The policy a `VP` or `PP` field names (R29); 3 is reserved. -/
def Policy.ofBits (b : BitVec 2) : Option Policy :=
  match b.toNat with
  | 0 => some .error
  | 1 => some .saturate
  | 2 => some .wrap
  | _ => none

/-- The policy an `EP` field names (R29); 5, 6 and 7 are reserved. -/
def EofPolicy.ofBits (b : BitVec 3) : Option EofPolicy :=
  match b.toNat with
  | 0 => some .zero
  | 1 => some .minValue
  | 2 => some .maxValue
  | 3 => some .negativeOne
  | 4 => some .noChange
  | _ => none

/-- The value policy, `POLICY` [1:0] (R29). -/
def State.valuePolicy (s : State) : Option Policy := Policy.ofBits (s.policy.extractLsb' 0 2)

/-- The pointer policy, `POLICY` [3:2] (R29). -/
def State.pointerPolicy (s : State) : Option Policy := Policy.ofBits (s.policy.extractLsb' 2 2)

/-- The EOF policy, `POLICY` [6:4] (R29). -/
def State.eofPolicy (s : State) : Option EofPolicy := EofPolicy.ofBits (s.policy.extractLsb' 4 3)

/-- R77: the exact candidate of moving `v` by the count `n`; the count is the operand zero-extended (R58). -/
def candidate (dir : Dir) (v : Int) (n : Opnd) : Int :=
  match dir with
  | .up => v + n.toNat
  | .down => v - n.toNat

/-- R80: the bound `Saturate` gives, chosen by the operation and not by the side (90_conflicts.md C1). -/
def saturated (lo hi : Int) (dir : Dir) : Int :=
  match dir with
  | .up => hi
  | .down => lo

/-- R81: the value of the range congruent to the candidate, by the non-negative remainder of R10. -/
def wrapped (cand lo hi : Int) : Int := (cand - lo) % (hi - lo + 1) + lo

/-- R78, the policy function shared by the value path and the pointer path. -/
def applyPolicy (cand lo hi : Int) (pol : Option Policy) (dir : Dir) : PolicyResult :=
  if inRange lo hi cand then .ok cand
  else
    match pol with
    | some .error => .err
    | some .saturate => .ok (saturated lo hi dir)
    | some .wrap => .ok (wrapped cand lo hi)
    | none => .reserved

/-- R94: the value an EOF beat stores; none where it stores nothing. -/
def eofValue (valueMin valueMax : Int) : EofPolicy → Option Int
  | .zero => some 0
  | .minValue => some valueMin
  | .maxValue => some valueMax
  | .negativeOne => some (-1)
  | .noChange => none

/-- R93: what a beat that takes the token stores in the cell, if anything. A byte is zero-extended. No answer where
the EOF policy's encoding is reserved. -/
def State.tokenValue (s : State) : Token → Option (Option Int)
  | .byte b => some (some (b.toNat : Int))
  | .eof => s.eofPolicy.map (eofValue s.valueMin s.valueMax)

/-- R9: `low8`, bits [7:0] of the two's-complement form. -/
def low8 (v : Int) : Byte := BitVec.ofInt 8 v

/-- R34: the signed number in the low `w` bits of a written word. -/
def signedLow (w : Nat) (word : Nat) : Int := Int.bmod (word : Int) (2 ^ w)

/-- R34, R46: a signed number sign-extended to a port of `w` bits, as the word the port carries. -/
def signExtended (w : Nat) (v : Int) : Nat := (v % (2 ^ w : Int)).toNat

/-- R102: the number of a fault code. -/
def FaultCode.bits : FaultCode → BitVec 4
  | .valueRange => 1#4
  | .pointerRange => 2#4
  | .configuration => 3#4
  | .illegalInstruction => 4#4

end Sys2Proof.Machine
end

