-- ==== Sys2Proof/Machine/Ops.lean ====
section
/-! DEFINITION. The operations the instructions, START and reset share: reading and writing the two memories, moving the
cursor, the beat counter, the streams, taking a fault (60_exceptions.md R104), the normal end (40_cycle.md R75), START
(70_reset_and_hazards.md R117) and reset (R116). -/

namespace Sys2Proof.Machine

/-! ### Lists keyed by rising indexes -/

/-- The value listed at an index. -/
def entry? {α : Type} : List (Nat × α) → Nat → Option α
  | [], _ => none
  | (k, v) :: rest, a => if k = a then some v else entry? rest a

/-- List a value at an index, in its place in the rising order. -/
def putEntry {α : Type} : List (Nat × α) → Nat → α → List (Nat × α)
  | [], a, x => [(a, x)]
  | (k, v) :: rest, a, x =>
    if a < k then (a, x) :: (k, v) :: rest
    else if a = k then (a, x) :: rest
    else (k, v) :: putEntry rest a x

/-- List no value at an index. -/
def dropEntry {α : Type} (l : List (Nat × α)) (a : Nat) : List (Nat × α) :=
  l.filter fun e => decide (e.1 ≠ a)

/-- Indexes strictly rise. -/
def rising {α : Type} : List (Nat × α) → Bool
  | [] => true
  | (k, _) :: rest => rest.all (fun e => decide (k < e.1)) && rising rest

/-! ### The memories -/

/-- The canonical form: indexes strictly rise, and no cell is listed with the 0 an unlisted cell holds. -/
def Memory.wf (m : Memory) : Bool :=
  rising m.imem && rising m.tape && m.tape.all fun e => decide (e.2 ≠ 0)

/-- `IMEM[a]`, if it was written since power-on (R36). -/
def Memory.word? (m : Memory) (a : Nat) : Option Word := entry? m.imem a

/-- `IMEM[a] <- w`. -/
def Memory.setWord (m : Memory) (a : Nat) (w : Word) : Memory :=
  { m with imem := putEntry m.imem a w }

/-- What the tape lists at `a`, whether or not the content of that cell is specified. -/
def Memory.rawCell (m : Memory) (a : Nat) : Int := (entry? m.tape a).getD 0

/-- `TAPE[a]`, where its content is specified: below the cells the last run's START cleared (R20). -/
def Memory.cell? (m : Memory) (a : Nat) : Option Int :=
  if a < m.tapeLive then some (m.rawCell a) else none

/-- `TAPE[a] <- v` (R11). -/
def Memory.setCell (m : Memory) (a : Nat) (v : Int) : Memory :=
  { m with tape := if v = 0 then dropEntry m.tape a else putEntry m.tape a v }

/-- START's clearing of cells `0 .. n − 1`; the cells above are left alone (R117). -/
def Memory.clearCells (m : Memory) (n : Nat) : Memory :=
  { m with tape := m.tape.filter (fun e => decide (n ≤ e.1)), tapeLive := n }

/-! ### The executor's registers -/

/-- `CELL`, the current cell (R12), where the run has such a cell. -/
def State.cell? (s : State) : Option Int := s.mem.cell? s.ptr.toNat

/-- `TAPE[PTR] <- v` (R39). -/
def State.setCell (s : State) (v : Int) : State :=
  { s with mem := s.mem.setCell s.ptr.toNat v }

/-- `PTR <- r` (R89, R90). -/
def State.setPtr (s : State) (r : Int) : State := { s with ptr := BitVec.ofInt 32 r }

/-- `PC <- PC + 1`, the sequential advance (R74). -/
def State.advance (s : State) : State := { s with pc := s.pc + 1#32 }

/-- `PC <- t + 1`, a taken bracket (R74). -/
def State.jumpPast (s : State) (t : Opnd) : State := { s with pc := t.setWidth 32 + 1#32 }

/-- The end of a beat (R92). -/
def State.beatEnd (s : State) (n : Opnd) : State :=
  if s.rep.toNat + 1 = n.toNat then { s with rep := 0#29 }.advance
  else { s with rep := s.rep + 1#29 }

/-! ### The streams -/

/-- The next token of a source, and the source after it; an exhausted source stays exhausted (R42). -/
def Source.next? : Source → Option (Token × Source)
  | .repeating [] => none
  | .repeating (t :: rest) => some (t, .repeating (rest ++ [t]))
  | .endless stream next => some (Config.hostToken stream next, .endless stream (next + 1))

/-- The token on offer, and what is on offer after it: the oldest one queued, or with none queued the next of the source. -/
def Env.next? (e : Env) : Option (Token × Env) :=
  match e.input with
  | [] => e.source.next?.map fun p => (p.1, { e with source := p.2 })
  | t :: rest => some (t, { e with input := rest })

/-- `InTake`: the next token and the state after taking it; none while no token is offered (R40, R41). -/
def State.takeToken (s : State) : Option (Token × State) :=
  s.env.next?.map fun p => (p.1, { s with env := { p.2 with consumed := p.2.consumed + 1 } })

/-- `OutPut(b)`: hand one byte to the host (R43). -/
def State.emit (s : State) (b : Byte) : State :=
  { s with env := { s.env with output := s.env.output ++ [b] } }

/-! ### Legality, faults and the normal end -/

/-- R61: whether the instruction at index `pc` of an image of `progLen` words is legal. -/
def Instr.legalAt (pc progLen : Nat) : Instr → Bool
  | .incValue n => n != 0
  | .decValue n => n != 0
  | .incPointer n => n != 0
  | .decPointer n => n != 0
  | .read n => n != 0
  | .write n => n != 0
  | .loopOpen t => decide (pc < t.toNat) && decide (t.toNat < progLen)
  | .loopClose t => decide (t.toNat < pc)

/-- R61 at the state's own `PC` and `PROG_LEN`. -/
def State.legal (s : State) (i : Instr) : Bool := Instr.legalAt s.pc.toNat s.progLen.toNat i

/-- R104, `raise Fault(code, info)`: the one way a step takes a fault. There is no return from it (R106); a START
begins a new run. -/
def State.raise (s : State) (code : FaultCode) (info : Word) : State :=
  { s with runState := .fault, faultCode := code.bits, faultPc := s.pc, faultInfo := info }

/-- R75, `halt Done`: the normal end, which changes `STATE` alone. -/
def State.halt (s : State) : State := { s with runState := .done }

/-- R72: run the instruction where it is legal, and take `IllegalInstruction` where it is not. The word the fault
record keeps is the instruction's own (R102). -/
def guardLegal (i : Instr) (s : State) (run : Host.Outcome State Fault Refusal) :
    Host.Outcome State Fault Refusal :=
  if s.legal i then run else .next (s.raise .illegalInstruction (encode i))

/-! ### START and reset -/

/-- R103: the number of the first configuration check that fails, or 0. -/
def State.configCause (s : State) : Nat :=
  if s.valuePolicy = none then 1
  else if s.pointerPolicy = none then 2
  else if s.eofPolicy = none then 3
  else if s.valueMax < s.valueMin then 4
  else if s.cellCount = 0#32 ∨ s.params.tapeDepth < s.cellCount.toNat then 5
  else if s.params.imemDepth < s.progLen.toNat then 6
  else 0

/-- The registers START clears (R117), and where the new run's record of the streams begins (R83). -/
def State.clearRun (s : State) : State :=
  { s with
    pc := 0#32, ptr := 0#32, rep := 0#29, faultCode := 0#4, faultPc := 0#32, faultInfo := 0#32
    env := { s.env with
      outputMark := s.env.output.length, consumedMark := s.env.consumed, runCells := s.cellCount.toNat
      held := [(0#32, 0#32)] } }

/-- R117: START, one indivisible transition. -/
def State.start (s : State) : State :=
  if s.runState = .running then s
  else if s.configCause = 0 then
    { s.clearRun with mem := s.mem.clearCells s.cellCount.toNat, runState := .running }
  else
    { s.clearRun with
      runState := .fault, faultCode := FaultCode.configuration.bits
      faultInfo := BitVec.ofNat 32 s.configCause }

/-- R116: reset sets every register to its reset value and leaves the memories, the streams and the outside world as
they are. -/
def State.hardReset (s : State) : State :=
  { State.reset with params := s.params, mem := s.mem, env := s.env }

/-- R32: the values `PC` and `PTR` hold at a step boundary, recorded for the host's reads of a run in progress. -/
def State.noteBoundary (s : State) : State :=
  if (s.pc, s.ptr) ∈ s.env.held then s
  else { s with env := { s.env with held := (s.pc, s.ptr) :: s.env.held } }

/-- Apply a function to the next state of an outcome. -/
def onNext (f : State → State) : Host.Outcome State Fault Refusal → Host.Outcome State Fault Refusal
  | .next s => .next (f s)
  | .fault r => .fault r
  | .refused r => .refused r

end Sys2Proof.Machine
end

