-- ==== Sys2Proof/Machine/Io.lean ====
section
/-! DEFINITION. The input and output family: one beat of `Read` or of `Write` (43_io.md R92 to R95). A beat that needs
a token or an acceptance the host does not give is a stall: the state stays as it is (20_memory.md R41, R44). -/

namespace Sys2Proof.Machine

/-- The store of a `Read` beat, where the beat stores (R93). -/
def storeBeat (n : Opnd) (s : State) : Option Int → Host.Outcome State Fault Refusal
  | none => .next (s.beatEnd n)
  | some v =>
    if s.ptr.toNat < s.mem.tapeLive then .next ((s.setCell v).beatEnd n) else .fault .tapeOutOfRun

/-- One beat of `Read(n)` (R93). -/
def readBeat (n : Opnd) (s : State) : Host.Outcome State Fault Refusal :=
  match s.takeToken with
  | none => .next s
  | some (tok, s') =>
    match s'.tokenValue tok with
    | none => .fault .reservedPolicy
    | some v => storeBeat n s' v

/-- One beat of `Write(n)` (R95). -/
def writeBeat (n : Opnd) (s : State) : Host.Outcome State Fault Refusal :=
  match s.cell? with
  | none => .fault .tapeOutOfRun
  | some v => if s.env.ready then .next ((s.emit (low8 v)).beatEnd n) else .next s

/-- `Read(n)`, one beat (R93). -/
def execRead (n : Opnd) (s : State) : Host.Outcome State Fault Refusal :=
  guardLegal (.read n) s (readBeat n s)

/-- `Write(n)`, one beat (R95). -/
def execWrite (n : Opnd) (s : State) : Host.Outcome State Fault Refusal :=
  guardLegal (.write n) s (writeBeat n s)

end Sys2Proof.Machine
end

