-- ==== Sys2Proof/Machine/Loop.lean ====
section
/-! DEFINITION. The loop family: `LoopOpen` and `LoopClose` (44_loop.md R97, R98). -/

namespace Sys2Proof.Machine

/-- The common body of R97 and R98: jump past the target when the zero test answers `taken`, else go on. -/
def bracketStep (taken : Int → Bool) (t : Opnd) (s : State) : Host.Outcome State Fault Refusal :=
  match s.cell? with
  | none => .fault .tapeOutOfRun
  | some v => if taken v then .next (s.jumpPast t) else .next s.advance

/-- `LoopOpen(t)` (R97). -/
def execLoopOpen (t : Opnd) (s : State) : Host.Outcome State Fault Refusal :=
  guardLegal (.loopOpen t) s (bracketStep cellIsZero t s)

/-- `LoopClose(t)` (R98). -/
def execLoopClose (t : Opnd) (s : State) : Host.Outcome State Fault Refusal :=
  guardLegal (.loopClose t) s (bracketStep (fun v => !cellIsZero v) t s)

end Sys2Proof.Machine
end

