-- ==== Sys2Proof/Machine/Pointer.lean ====
section
/-! DEFINITION. The pointer family: `IncPointer` and `DecPointer` (42_pointer.md R89, R90, R91). -/

namespace Sys2Proof.Machine

/-- The common body of R89 and R90: an exact candidate from `PTR`, the pointer policy over `[0, CELL_COUNT − 1]`,
the write of `PTR`. The tape is neither read nor written. -/
def pointerStep (i : Instr) (dir : Dir) (n : Opnd) (s : State) : Host.Outcome State Fault Refusal :=
  match applyPolicy (candidate dir s.ptr.toNat n) 0 (s.cellCount.toNat - 1) s.pointerPolicy dir with
  | .ok r => .next (s.setPtr r).advance
  | .err => .next (s.raise .pointerRange (encode i))
  | .reserved => .fault .reservedPolicy

/-- `IncPointer(n)` (R89). -/
def execIncPointer (n : Opnd) (s : State) : Host.Outcome State Fault Refusal :=
  guardLegal (.incPointer n) s (pointerStep (.incPointer n) .up n s)

/-- `DecPointer(n)` (R90). -/
def execDecPointer (n : Opnd) (s : State) : Host.Outcome State Fault Refusal :=
  guardLegal (.decPointer n) s (pointerStep (.decPointer n) .down n s)

end Sys2Proof.Machine
end

