-- ==== Sys2Proof/Machine/Value.lean ====
section
/-! DEFINITION. The value family: `IncValue` and `DecValue` (41_value.md R84, R85, R86). -/

namespace Sys2Proof.Machine

/-- The common body of R84 and R85: an exact candidate from the current cell, the value policy, the store. -/
def valueStep (i : Instr) (dir : Dir) (n : Opnd) (s : State) : Host.Outcome State Fault Refusal :=
  match s.cell? with
  | none => .fault .tapeOutOfRun
  | some v =>
    match applyPolicy (candidate dir v n) s.valueMin s.valueMax s.valuePolicy dir with
    | .ok r => .next (s.setCell r).advance
    | .err => .next (s.raise .valueRange (encode i))
    | .reserved => .fault .reservedPolicy

/-- `IncValue(n)` (R84). -/
def execIncValue (n : Opnd) (s : State) : Host.Outcome State Fault Refusal :=
  guardLegal (.incValue n) s (valueStep (.incValue n) .up n s)

/-- `DecValue(n)` (R85). -/
def execDecValue (n : Opnd) (s : State) : Host.Outcome State Fault Refusal :=
  guardLegal (.decValue n) s (valueStep (.decValue n) .down n s)

end Sys2Proof.Machine
end

