-- ==== Sys2Proof/Machine/Dispatch.lean ====
section
/-! DEFINITION. The dispatch of the step (40_cycle.md R72): one arm per instruction, each a call of its meaning. -/

namespace Sys2Proof.Machine

def exec (i : Instr) (s : State) : Host.Outcome State Fault Refusal :=
  match i with
  | .incValue n => Sys2Proof.Machine.execIncValue n s
  | .decValue n => Sys2Proof.Machine.execDecValue n s
  | .incPointer n => Sys2Proof.Machine.execIncPointer n s
  | .decPointer n => Sys2Proof.Machine.execDecPointer n s
  | .read n => Sys2Proof.Machine.execRead n s
  | .write n => Sys2Proof.Machine.execWrite n s
  | .loopOpen t => Sys2Proof.Machine.execLoopOpen t s
  | .loopClose t => Sys2Proof.Machine.execLoopClose t s

end Sys2Proof.Machine
end

