-- ==== Sys2Proof/Machine/HostPort.lean ====
section
/-! DEFINITION. The host's side of the block: the register map (10_state.md R25 to R35), the image and tape ports
(20_memory.md R46), the streams as the host drives them (R40, R44), and reset (70_reset_and_hazards.md R116). -/

namespace Sys2Proof.Machine

/-! ### Free draws -/

/-- One free draw, and the state after it (93_implementation_defined.md, treatment "any value"). -/
def State.draw (s : State) : Nat × State :=
  (Config.freeBits s.env.draws, { s with env := { s.env with draws := s.env.draws + 1 } })

/-- A cell with an unspecified content, as the tape port carries it: any `W_CELL`-bit value, sign-extended (U2, U4). -/
def State.drawCell (s : State) : Nat × State :=
  (signExtended s.params.hostW (signedLow s.params.wCell s.draw.1), s.draw.2)

/-- An instruction word with an unspecified content (U3). -/
def State.drawWord (s : State) : Nat × State := (s.draw.1 % 2 ^ 32, s.draw.2)

/-- One of the values (`PC`, `PTR`) held at a step boundary of the run (R32, U5). -/
def State.drawBoundary (s : State) : (Word × Word) × State :=
  (s.env.held.getD (s.draw.1 % s.env.held.length) (s.pc, s.ptr), s.draw.2)

/-! ### The register port -/

/-- `STATUS` (R31): `STATE` in [1:0], `EXIT` in [2], `FAULT_CODE` in [7:4], every other bit 0. -/
def State.status (s : State) : Word :=
  (0#24 ++ s.faultCode ++ 0#1 ++ s.runState.exitBit ++ s.runState.bits : BitVec 32)

/-- A host read of the register at a byte offset (R34): the word the port returns and the state after the read.
Offsets that are reserved or no multiple of 4 read 0 (R34, R48), and so does `CONTROL` (R30). `PC` and `PTR` are
zero-extended to the port (R32) and the value bounds sign-extended (R34). DESIGN CHOICE, log entry 19: on a port wider than
32 bits the other registers (`STATUS`, `CELL_COUNT`, `PROG_LEN`, `POLICY`, `FAULT_PC`, `FAULT_INFO`) read 0 above bit 31. -/
def State.readReg (s : State) (offset : Nat) : Nat × State :=
  match offset with
  | 0x04 => (s.status.toNat, s)
  | 0x08 => (signExtended s.params.hostW s.valueMin, s)
  | 0x0C => (signExtended s.params.hostW s.valueMax, s)
  | 0x10 => (s.cellCount.toNat, s)
  | 0x14 => (s.progLen.toNat, s)
  | 0x18 => (s.policy.toNat, s)
  | 0x1C => if s.runState = .running then (s.drawBoundary.1.1.toNat, s.drawBoundary.2) else (s.pc.toNat, s)
  | 0x20 => if s.runState = .running then (s.drawBoundary.1.2.toNat, s.drawBoundary.2) else (s.ptr.toNat, s)
  | 0x24 => (s.faultPc.toNat, s)
  | 0x28 => (s.faultInfo.toNat, s)
  | _ => (0, s)

/-- The bits of `POLICY` a write can set; [31:7] are reserved (R29). -/
def policyMask : Word := 0x0000007F#32

/-- A host write of a register outside a run (R25 to R30, R34). Offsets that are read-only, reserved or no multiple
of 4 ignore the write. A 32-bit register takes the low 32 bits of a wider port's word (log entry 8). -/
def State.writeIdle (s : State) (offset value : Nat) : State :=
  match offset with
  | 0x00 => if value % 2 = 1 then s.start else s
  | 0x08 => { s with valueMin := signedLow s.params.wCell value }
  | 0x0C => { s with valueMax := signedLow s.params.wCell value }
  | 0x10 => { s with cellCount := BitVec.ofNat 32 value }
  | 0x14 => { s with progLen := BitVec.ofNat 32 value }
  | 0x18 => { s with policy := BitVec.ofNat 32 value &&& policyMask }
  | _ => s

/-- A host write of a register: ignored while RUNNING (R35). The port carries `HOST_W` bits (R34). -/
def State.writeReg (s : State) (offset value : Nat) : State :=
  if s.runState = .running then s else s.writeIdle offset (value % 2 ^ s.params.hostW)

/-! ### The image port and the tape port -/

/-- R46: a write of an instruction word, ignored while RUNNING and at an index past the memory. -/
def State.writeImage (s : State) (index : Nat) (w : Word) : State :=
  if s.runState = .running then s
  else if index < s.params.imemDepth then { s with mem := s.mem.setWord index w }
  else s

/-- R46: a read of an instruction word; a word never written is unspecified (R36). -/
def State.readImage (s : State) (index : Nat) : Nat × State :=
  if index < s.params.imemDepth then
    match s.mem.word? index with
    | some w => (w.toNat, s)
    | none => s.drawWord
  else (0, s)

/-- R46: a read of a cell, sign-extended; unspecified while RUNNING, and for a cell the last run did not have. -/
def State.readTape (s : State) (index : Nat) : Nat × State :=
  if index < s.params.tapeDepth then
    if s.runState = .running then s.drawCell
    else
      match s.mem.cell? index with
      | some v => (signExtended s.params.hostW v, s)
      | none => s.drawCell
  else (0, s)

/-! ### One action of the host -/

/-- Record what a read returned. -/
def State.reply (r : Nat × State) : State :=
  { r.2 with env := { r.2.env with replies := r.2.env.replies ++ [r.1] } }

/-- R40: one more token on offer. -/
def State.offer (s : State) (t : Token) : State :=
  { s with env := { s.env with input := s.env.input ++ [t] } }

/-- R42, R119 P5: the host chooses what it offers after the queued tokens. -/
def State.supply (s : State) (source : Source) : State :=
  { s with env := { s.env with source := source } }

/-- R44: the host begins or stops accepting output bytes. -/
def State.accept (s : State) (ready : Bool) : State :=
  { s with env := { s.env with ready := ready } }

/-- One indivisible action of the host (R49). -/
def hostAct (a : HostAction) (s : State) : State :=
  match a with
  | .writeReg offset value => s.writeReg offset value
  | .readReg offset => State.reply (s.readReg offset)
  | .writeImage index w => s.writeImage index w
  | .readImage index => State.reply (s.readImage index)
  | .readTape index => State.reply (s.readTape index)
  | .offer t => s.offer t
  | .supply source => s.supply source
  | .accept ready => s.accept ready
  | .reset => s.hardReset

end Sys2Proof.Machine
end

