-- ==== Sys2Proof/Machine/Cycle.lean ====
section
/-! DEFINITION. The executor's turn: the normal end, the fetch, the decoding and the dispatch (40_cycle.md R71 to R75). -/

namespace Sys2Proof.Machine

/-- R73: the word at `PC`, if the host ever wrote it. -/
def State.fetch? (s : State) : Option Word := s.mem.word? s.pc.toNat

/-- R72 inside a run: the halt past the last instruction, else the instruction at `PC`. -/
def runStep (s : State) : Host.Outcome State Fault Refusal :=
  if s.progLen.toNat ≤ s.pc.toNat then .next s.halt
  else
    match s.fetch? with
    | none => .fault .unloadedWord
    | some w => onNext State.noteBoundary (exec (decode w) s)

/-- R71: the executor steps while RUNNING, and outside RUNNING it has no step (log entry 5). -/
def executorTurn (s : State) : Host.Outcome State Fault Refusal :=
  match s.runState with
  | .running => runStep s
  | .idle => .next s
  | .done => .next s
  | .fault => .next s

/-- The state with the turns still to come replaced. -/
def State.withTurns (s : State) (turns : List Turn) : State :=
  { s with env := { s.env with turns := turns } }

/-- One turn of the agent whose turn it is (R49, R52): the executor's where no turn is planned. -/
def takeTurn (s : State) : Host.Outcome State Fault Refusal :=
  match s.env.turns with
  | [] => executorTurn s
  | .executor :: rest => executorTurn (s.withTurns rest)
  | .host a :: rest => .next (hostAct a (s.withTurns rest))

/-- The state in which the next turn is the executor's and the word at `PC` is `w`: a run in progress has the word put
in its image; outside a run the host loads the one-word image `w` and writes START, as R118 says. -/
def State.launch (s : State) (w : Word) : State :=
  let ready := s.withTurns (.executor :: s.env.turns)
  match s.runState with
  | .running =>
    { ready with
      mem := s.mem.setWord s.pc.toNat w
      progLen := if s.pc.toNat < s.progLen.toNat then s.progLen else s.pc + 1#32 }
  | _ => { ready with mem := s.mem.setWord 0 w, progLen := 1#32 }.start

end Sys2Proof.Machine
end

