-- ==== Sys2Proof/Machine/Step.lean ====
section
/-! DEFINITION. One step of the machine: one indivisible turn of the executor or of the host (20_memory.md R49), and the
placing of a word where the next step fetches. -/

namespace Sys2Proof.Machine

/-- One step: the turn of whichever agent the state says is next (R49, R52, R71). -/
def step (s : State) : Host.Outcome State Fault Refusal := takeTurn s

/-- The state whose very next step fetches and runs the table word `w` (log entry 7): the word is put at `PC` of a run
in progress; outside a run it becomes the image and START is written. A row has 32 bits (R63). -/
def State.withFetchWord (s : State) (nbits w : Nat) : State :=
  s.launch (BitVec.ofNat 32 (w % 2 ^ nbits))

end Sys2Proof.Machine
end

