-- ==== Sys2Proof/WellFormed.lean ====
section
/-! DEFINITION. Well-formed instructions and images. An instruction is well formed when its count is positive
(30_encoding.md R58); a bracket's target can be judged only beside `PC` and `PROG_LEN` (R61), so every
target is well formed as syntax. An image is well formed when it meets the pairing invariant of R68, which
the spec asks of the image's producer and not of the block (R61, R101). -/

namespace Sys2Proof

/-- R58: a count is at least 1. R59: any 29-bit target can be written. -/
def Instr.wellFormed : Instr → Bool
  | .incValue n => n != 0
  | .decValue n => n != 0
  | .incPointer n => n != 0
  | .decPointer n => n != 0
  | .read n => n != 0
  | .write n => n != 0
  | .loopOpen _ => true
  | .loopClose _ => true

/-- The partner index an instruction names, when it is a bracket (R59). -/
def Instr.partner? : Instr → Option Nat
  | .loopOpen t => some t.toNat
  | .loopClose t => some t.toNat
  | .incValue _ => none
  | .decValue _ => none
  | .incPointer _ => none
  | .decPointer _ => none
  | .read _ => none
  | .write _ => none

/-- R68 for the bracket at index `i` of image `p`: an open's partner is a later close that names it back, and
every bracket strictly between them has its partner strictly between them too; a close's partner is an
earlier open that names it back. -/
def Image.pairedAt (p : List Instr) (i : Nat) : Bool :=
  match p[i]? with
  | some (.loopOpen t) =>
    decide (i < t.toNat) && p[t.toNat]? == some (.loopClose (BitVec.ofNat 29 i)) &&
      decide (i < 2 ^ 29) &&
      (List.range p.length).all fun k =>
        match p[k]?.bind Instr.partner? with
        | some u => !(decide (i < k) && decide (k < t.toNat)) || (decide (i < u) && decide (u < t.toNat))
        | none => true
  | some (.loopClose t) =>
    decide (t.toNat < i) && p[t.toNat]? == some (.loopOpen (BitVec.ofNat 29 i)) && decide (i < 2 ^ 29)
  | _ => true

/-- R68, the pairing invariant of a correct image, with every count at least 1. -/
def Image.wellFormed (p : List Instr) : Bool :=
  p.all Instr.wellFormed && (List.range p.length).all (Image.pairedAt p)

end Sys2Proof
end

