-- ==== Sys2Proof/Machine/Producer.lean ====
section
/-! DEFINITION. The image producer on the host's side (30_encoding.md R64 to R69), the contract of whoever loads the
instruction memory. It is no part of the block and no step calls it (00_scope.md R5); it is here so that a claim can
say "the image was produced from source `s`" (R119 P4). -/

namespace Sys2Proof.Machine

/-- Why no image results (R67, R69). -/
inductive ProducerError where
  /-- A `]` with no pending `[` (R67). -/
  | unmatchedClose
  /-- A `[` still pending at the end of the source (R67). -/
  | unmatchedOpen
  /-- A folded run longer than `2^29 − 1` symbols (R69). -/
  | countTooLarge
  /-- An image longer than `IMEM_DEPTH` words (R69). -/
  | imageTooLong
deriving DecidableEq, Repr

/-- The instruction that begins at one of the six symbols that are no brackets, with count 1 (R57, R66). -/
def symbolInstr (c : Char) : Option Instr :=
  if c = '+' then some (.incValue 1#29)
  else if c = '-' then some (.decValue 1#29)
  else if c = '>' then some (.incPointer 1#29)
  else if c = '<' then some (.decPointer 1#29)
  else if c = ',' then some (.read 1#29)
  else if c = '.' then some (.write 1#29)
  else none

/-- R66: the instruction with its count incremented, where the new symbol's instruction `i` folds into `last`: the same
opcode, and one of the four that fold. -/
def foldInto (i last : Instr) : Option Instr :=
  match i, last with
  | .incValue _, .incValue n => some (.incValue (n + 1#29))
  | .decValue _, .decValue n => some (.decValue (n + 1#29))
  | .incPointer _, .incPointer n => some (.incPointer (n + 1#29))
  | .decPointer _, .decPointer n => some (.decPointer (n + 1#29))
  | _, _ => none

/-- Append one instruction, where it fits the instruction memory (R69). -/
def appendInstr (depth : Nat) (code : List Instr) (i : Instr) : Except ProducerError (List Instr) :=
  if code.length < depth then .ok (code ++ [i]) else .error .imageTooLong

/-- Append the instruction of a symbol, or fold it into the instruction just appended (R65, R66). -/
def appendSymbol (depth : Nat) (code : List Instr) (i : Instr) : Except ProducerError (List Instr) :=
  match code.getLast?.bind (foldInto i) with
  | some grown =>
    if grown.operand = 0#29 then .error .countTooLarge else .ok (code.dropLast ++ [grown])
  | none => appendInstr depth code i

/-- One character of the source: the code so far and the stack of pending-open indices, the newest first (R65, R67).
An open is appended with target 0, which its close overwrites. -/
def scanChar (depth : Nat) (c : Char) (code : List Instr) (opens : List Nat) :
    Except ProducerError (List Instr × List Nat) :=
  if c = '[' then
    match appendInstr depth code (.loopOpen 0#29) with
    | .ok code' => .ok (code', code.length :: opens)
    | .error e => .error e
  else if c = ']' then
    match opens with
    | [] => .error .unmatchedClose
    | o :: rest =>
      match appendInstr depth code (.loopClose (BitVec.ofNat 29 o)) with
      | .ok code' => .ok (code'.set o (.loopOpen (BitVec.ofNat 29 code.length)), rest)
      | .error e => .error e
  else
    match symbolInstr c with
    | none => .ok (code, opens)
    | some i =>
      match appendSymbol depth code i with
      | .ok code' => .ok (code', opens)
      | .error e => .error e

/-- The scan, left to right, once (R65), with the check for pending opens after it (R67). -/
def scanSource (depth : Nat) : List Char → List Instr → List Nat → Except ProducerError (List Instr)
  | [], code, [] => .ok code
  | [], _, _ :: _ => .error .unmatchedOpen
  | c :: cs, code, opens =>
    match scanChar depth c code opens with
    | .ok (code', opens') => scanSource depth cs code' opens'
    | .error e => .error e

/-- The image of a source text, as instructions (R65 to R69). -/
def produce (p : Params) (source : List Char) : Except ProducerError (List Instr) :=
  scanSource p.imemDepth source [] []

end Sys2Proof.Machine
end

