-- ==== Sys2Proof/Safety.lean ====
section
/-! DEFINITION. The terms claims use: what a step leaves alone, the invariants of the block (10_state.md R24) with what
they rest on, the input as a sequence and the launch premises (70_reset_and_hazards.md R119), a run's observation at its end
(40_cycle.md R83), and instructions executed several beats in a row. -/

namespace Sys2Proof.Machine

/-! ### What is left alone -/

/-- The parameters and the configuration registers are the same. -/
structure State.SameConfig (s t : State) : Prop where
  params : t.params = s.params
  valueMin : t.valueMin = s.valueMin
  valueMax : t.valueMax = s.valueMax
  cellCount : t.cellCount = s.cellCount
  progLen : t.progLen = s.progLen
  policy : t.policy = s.policy

/-- `STATE` and the fault record are the same. -/
structure State.SameRecord (s t : State) : Prop where
  runState : t.runState = s.runState
  faultCode : t.faultCode = s.faultCode
  faultPc : t.faultPc = s.faultPc
  faultInfo : t.faultInfo = s.faultInfo

/-- Every instruction word reads the same, and every cell but the one at `a` reads the same. -/
structure State.SameMemoryBut (a : Nat) (s t : State) : Prop where
  words : ∀ b, t.mem.word? b = s.mem.word? b
  tapeLive : t.mem.tapeLive = s.mem.tapeLive
  cells : ∀ b, b ≠ a → t.mem.rawCell b = s.mem.rawCell b

/-- Every instruction word and every cell reads the same. -/
structure State.SameMemory (s t : State) : Prop where
  words : ∀ b, t.mem.word? b = s.mem.word? b
  tapeLive : t.mem.tapeLive = s.mem.tapeLive
  cells : ∀ b, t.mem.rawCell b = s.mem.rawCell b

/-- The instruction that moves the value in a direction: `IncValue` or `DecValue`. -/
def valueInstr (dir : Dir) (n : Opnd) : Instr :=
  match dir with
  | .up => .incValue n
  | .down => .decValue n

/-- The instruction that moves the pointer in a direction: `IncPointer` or `DecPointer`. -/
def pointerInstr (dir : Dir) (n : Opnd) : Instr :=
  match dir with
  | .up => .incPointer n
  | .down => .decPointer n

/-- The frame of a value instruction that stores: all but the current cell is left alone, and `PC` advances (R84, R85). -/
structure ValueFrame (s t : State) : Prop where
  pc : t.pc = s.pc + 1#32
  ptr : t.ptr = s.ptr
  rep : t.rep = s.rep
  config : s.SameConfig t
  record : s.SameRecord t
  memory : s.SameMemoryBut s.ptr.toNat t
  env : t.env = s.env

/-- The frame of a pointer instruction that moves: all but `PTR` is left alone, and `PC` advances (R89, R90). -/
structure PointerFrame (s t : State) : Prop where
  pc : t.pc = s.pc + 1#32
  rep : t.rep = s.rep
  config : s.SameConfig t
  record : s.SameRecord t
  memory : s.SameMemory t
  env : t.env = s.env

/-- The end of a beat of an instruction with count `n`, and what no beat touches (R92). The cell and the streams are not
spoken of here. -/
structure BeatFrame (n : Opnd) (s t : State) : Prop where
  lastBeat : s.rep.toNat + 1 = n.toNat → t.rep = 0#29 ∧ t.pc = s.pc + 1#32
  innerBeat : s.rep.toNat + 1 ≠ n.toNat → t.rep = s.rep + 1#29 ∧ t.pc = s.pc
  ptr : t.ptr = s.ptr
  config : s.SameConfig t
  record : s.SameRecord t

/-- R61: the instruction is illegal at its `PC`: a zero count, an open whose target is not strictly after it and inside the
image, or a close whose target is not strictly before it. -/
def IllegalHere (s : State) (i : Instr) : Prop :=
  (i.partner? = none ∧ i.operand = 0#29) ∨
  (∃ t, i = .loopOpen t ∧ ¬(s.pc.toNat < t.toNat ∧ t.toNat < s.progLen.toNat)) ∨
  (∃ t, i = .loopClose t ∧ ¬(t.toNat < s.pc.toNat))

/-- The number in the `EP` field of `POLICY`, bits [6:4] (R29). -/
def State.epField (s : State) : Nat := s.policy.toNat / 16 % 8

/-- R93, R94: the value of the current cell after a beat that takes the token, from the value `v` before it. -/
def State.afterToken (s : State) (v : Int) : Token → Int
  | .byte b => b.toNat
  | .eof =>
    if s.epField = 0 then 0
    else if s.epField = 1 then s.valueMin
    else if s.epField = 2 then s.valueMax
    else if s.epField = 3 then -1
    else v

/-- R103: the number of the first check the configuration fails, read off the table: 0 where it passes every check. -/
def State.firstFailingCheck (s : State) : Nat :=
  if s.policy.toNat % 4 = 3 then 1
  else if s.policy.toNat / 4 % 4 = 3 then 2
  else if 5 ≤ s.policy.toNat / 16 % 8 then 3
  else if s.valueMax < s.valueMin then 4
  else if s.cellCount.toNat = 0 ∨ s.params.tapeDepth < s.cellCount.toNat then 5
  else if s.params.imemDepth < s.progLen.toNat then 6
  else 0

/-! ### The input as a sequence -/

/-- Token number `k` of what a source will offer, counted from the next one. -/
def Source.token? : Source → Nat → Option Token
  | .repeating period, k => period[k % period.length]?
  | .endless stream next, k => some (Config.hostToken stream (next + k))

/-- R119 P5: token number `k` of the input the host will offer, counted from the next one to be taken, as far as no later
turn of the host changes it. An infinite input has a token for every `k`. -/
def Env.token? (e : Env) (k : Nat) : Option Token :=
  if k < e.input.length then e.input[k]? else e.source.token? (k - e.input.length)

/-- R119: the launch premises, of a run over an image of the given words whose input is the given sequence. -/
structure State.Launched (image : List Word) (input : Nat → Option Token) (s : State) : Prop where
  running : s.runState = .running
  pc : s.pc = 0#32
  ptr : s.ptr = 0#32
  rep : s.rep = 0#29
  cells : ∀ a, a < s.cellCount.toNat → s.mem.cell? a = some 0
  checks : s.firstFailingCheck = 0
  progLen : s.progLen.toNat = image.length
  image : ∀ a, a < image.length → s.mem.word? a = image[a]?
  input : ∀ k, s.env.token? k = input k

/-! ### Invariants -/

/-- The signed range of a `W_CELL`-bit cell (R8). -/
def fitsCell (p : Params) (v : Int) : Prop := -(2 ^ (p.wCell - 1)) ≤ v ∧ v < 2 ^ (p.wCell - 1)

/-- Every item of state has the width and the form R15 gives it: the parameters are legal, the memories are in
canonical form and inside their depths, the cells and the value bounds fit `W_CELL` bits, and the reserved bits
of `POLICY` read 0 (R29). -/
structure State.Fits (s : State) : Prop where
  params : s.params.ok = true
  memory : s.mem.wf = true
  words : ∀ e ∈ s.mem.imem, e.1 < s.params.imemDepth
  cells : ∀ e ∈ s.mem.tape, e.1 < s.params.tapeDepth ∧ fitsCell s.params e.2
  live : s.mem.tapeLive ≤ s.params.tapeDepth
  valueMin : fitsCell s.params s.valueMin
  valueMax : fitsCell s.params s.valueMax
  policy : s.policy.toNat < 2 ^ 7

/-- R24's first three invariants, those of a run in progress: the configuration passes START's checks, the pointer is
on a cell START cleared, the cursor has not left the image; and the host's reads have a boundary to read (R32). -/
structure State.RunOk (s : State) : Prop where
  checks : s.configCause = 0
  live : s.mem.tapeLive = s.cellCount.toNat
  runCells : s.env.runCells = s.cellCount.toNat
  ptr : s.ptr.toNat < s.cellCount.toNat
  pc : s.pc.toNat ≤ s.progLen.toNat
  held : (s.pc, s.ptr) ∈ s.env.held

/-- R24's fourth invariant: the beat counter counts beats of the `Read` or `Write` at `PC`. -/
def State.RepOk (s : State) : Prop :=
  s.rep = 0#29 ∨
    (s.pc.toNat < s.progLen.toNat ∧ ∃ w n, s.mem.word? s.pc.toNat = some w ∧
      (decode w = .read n ∨ decode w = .write n) ∧ s.rep.toNat < n.toNat)

/-- R31, R102: the fault record is all zero unless `STATE` is FAULT, and then it holds an assigned code. -/
structure State.RecordOk (s : State) : Prop where
  clear : s.runState ≠ .fault → s.faultCode = 0#4 ∧ s.faultPc = 0#32 ∧ s.faultInfo = 0#32
  code : s.runState = .fault → ∃ c : FaultCode, s.faultCode = c.bits

/-- The invariant of the machine. -/
structure State.Inv (s : State) : Prop where
  fits : s.Fits
  run : s.runState = .running → s.RunOk
  rep : s.RepOk
  idle : s.runState ≠ .running → s.rep = 0#29
  record : s.RecordOk

/-- R118, step 2, as far as the next turn needs it: the word the executor would fetch was written. -/
def State.NextWordLoaded (s : State) : Prop :=
  s.runState = .running → s.pc.toNat < s.progLen.toNat → s.fetch?.isSome

/-! ### The end of a run -/

/-- R83: what is observed of a run at its end. -/
structure RunEnd where
  exit : BitVec 1
  faultCode : BitVec 4
  faultPc : Word
  faultInfo : Word
  output : List Byte
  consumed : Nat
  ptr : Word
  pc : Word
  /-- `TAPE[0..CELL_COUNT − 1]`; none where the spec leaves the content unspecified. -/
  cells : List (Option Int)
deriving DecidableEq, Repr

/-- R83: the observation of a run that has ended; a run in progress has none, nor has a reset machine. `CELL_COUNT` is
the one of the run's own START, which a host may change after the end. A START that ended in a configuration fault
cleared no cell: a cell that no earlier run left either is unspecified (R36, log entry 11). -/
def State.runEnd? (s : State) : Option RunEnd :=
  if s.runState.halted then
    some
      { exit := s.runState.exitBit, faultCode := s.faultCode, faultPc := s.faultPc, faultInfo := s.faultInfo
        output := s.env.output.drop s.env.outputMark
        consumed := s.env.consumed - s.env.consumedMark
        ptr := s.ptr, pc := s.pc
        cells := (List.range s.env.runCells).map s.mem.cell? }
  else none

/-! ### Beats in a row -/

/-- `k` executions of one instruction in a row, as the `k` first beats of a `Read` or a `Write` are (R92). -/
def execTimes (i : Instr) : Nat → State → Host.Outcome State Fault Refusal
  | 0, s => .next s
  | k + 1, s =>
    match exec i s with
    | .next t => execTimes i k t
    | .fault r => .fault r
    | .refused r => .refused r

/-- Whether host action `a` is a write that starts a run: 1 to `CONTROL.START` (R30). -/
def HostAction.startsRun : HostAction → Bool
  | .writeReg 0 value => value % 2 == 1
  | _ => false

end Sys2Proof.Machine
end

