-- ==== Sys2Proof/Certificates/Slice0/Obligations.lean ====
section
/-! DEFINITION. The statements for the provers, one definition each. A hypothesis is on the state and the operands; a
statement that rests on a choice of the model says so and names its log entry. `exec i s = .next t` is the
instruction's own step; `step` adds the turns of the host and the recorded boundary (log entries 4 and 6). -/

open Sys2Proof Sys2Proof.Machine

/-! ### Encoding -/

/-- R70: the two worked encodings of the spec, from source text to words. -/
def Obligations.WorkedEncodingsOfTheSpec : Prop :=
  produce Params.default ['+', '+', '+', '.'] = .ok [.incValue 3#29, .write 1#29] ∧
  [Instr.incValue 3#29, .write 1#29].map encode = [0x00000003#32, 0xA0000001#32] ∧
  produce Params.default ['[', ']'] = .ok [.loopOpen 1#29, .loopClose 0#29] ∧
  [Instr.loopOpen 1#29, .loopClose 0#29].map encode = [0xC0000001#32, 0xE0000000#32]

/-- Words the spec writes out in its examples, one of each row, decode to the instructions it names for them. -/
def Obligations.WordsOfTheSpecDecode : Prop :=
  decode 0x0000000A#32 = .incValue 10#29 ∧ decode 0x20000001#32 = .decValue 1#29 ∧
  decode 0x40000005#32 = .incPointer 5#29 ∧ decode 0x60000001#32 = .decPointer 1#29 ∧
  decode 0x80000001#32 = .read 1#29 ∧ decode 0xA0000003#32 = .write 3#29 ∧
  decode 0xC000001D#32 = .loopOpen 29#29 ∧ decode 0xE0000018#32 = .loopClose 24#29

/-- R57, R58, R59, R60: every 32-bit word names exactly one instruction, the one of its top three bits, with the number in
its low 29 bits as the operand. -/
def Obligations.EveryWordNamesOneInstruction : Prop :=
  ∀ w : Word,
    (decode w).operand.toNat = w.toNat % 2 ^ 29 ∧
    (w.toNat / 2 ^ 29 = 0 → decode w = .incValue (BitVec.ofNat 29 w.toNat)) ∧
    (w.toNat / 2 ^ 29 = 1 → decode w = .decValue (BitVec.ofNat 29 w.toNat)) ∧
    (w.toNat / 2 ^ 29 = 2 → decode w = .incPointer (BitVec.ofNat 29 w.toNat)) ∧
    (w.toNat / 2 ^ 29 = 3 → decode w = .decPointer (BitVec.ofNat 29 w.toNat)) ∧
    (w.toNat / 2 ^ 29 = 4 → decode w = .read (BitVec.ofNat 29 w.toNat)) ∧
    (w.toNat / 2 ^ 29 = 5 → decode w = .write (BitVec.ofNat 29 w.toNat)) ∧
    (w.toNat / 2 ^ 29 = 6 → decode w = .loopOpen (BitVec.ofNat 29 w.toNat)) ∧
    (w.toNat / 2 ^ 29 = 7 → decode w = .loopClose (BitVec.ofNat 29 w.toNat))

/-- Decoding and encoding agree both ways, on every instruction with every operand and on every word, and through the
little-endian byte file of R47. -/
def Obligations.DecodeAndEncodeAgree : Prop :=
  (∀ i : Instr, decode (encode i) = i) ∧ (∀ w : Word, encode (decode w) = w) ∧
  (∀ (i : Instr) (rest : List Byte), decodeBytes (wordBytes (encode i) ++ rest) = .ok (i, rest))

/-- R47: an image file holds each word as four bytes, bits [7:0] first, words in index order, and reads back whole. -/
def Obligations.ImageFileIsLittleEndian : Prop :=
  (∀ w : Word, (wordBytes w).map BitVec.toNat =
    [w.toNat % 256, w.toNat / 256 % 256, w.toNat / 65536 % 256, w.toNat / 16777216]) ∧
  (∀ ws : List Word, imageOfBytes (bytesOfImage ws) = .ok ws)

/-! ### The step -/

/-- R72, R73: on the executor's turn in a run, the step is the execution of the instruction that the word at `PC` decodes
to; after it the model records the boundary (`PC`, `PTR`) in `held` and changes nothing else. -/
def Obligations.StepRunsTheDecodedInstruction : Prop :=
  (∀ (s : State) (rest : List Turn) (w : Word),
    ((s.env.turns = [] ∧ rest = []) ∨ s.env.turns = .executor :: rest) →
    s.runState = .running → s.pc.toNat < s.progLen.toNat → s.mem.word? s.pc.toNat = some w →
    step s = onNext State.noteBoundary (exec (decode w) (s.withTurns rest))) ∧
  (∀ t : State, t.noteBoundary = { t with env := { t.env with held := t.noteBoundary.env.held } } ∧
    ∀ p, p ∈ t.noteBoundary.env.held ↔ p = (t.pc, t.ptr) ∨ p ∈ t.env.held)

/-- Log entry 7: the word placed by `withFetchWord` after reset is the first one a step runs, in a state that meets the
launch premises P1 and P2 of R119. -/
def Obligations.PlacedWordRunsFirstAfterReset : Prop :=
  ∀ w : Nat, w < 2 ^ 32 → ∃ s : State,
    step (State.reset.withFetchWord 32 w) = onNext State.noteBoundary (exec (decode (BitVec.ofNat 32 w)) s) ∧
    s.runState = .running ∧ s.pc = 0#32 ∧ s.ptr = 0#32 ∧ s.rep = 0#29 ∧ s.progLen = 1#32 ∧
    s.mem.word? 0 = some (BitVec.ofNat 32 w) ∧ ∀ a, a < 30000 → s.mem.cell? a = some 0

/-- 92_eei_decisions.md D30, 93_implementation_defined.md U3: fetching a word never written is a fault of the model. -/
def Obligations.UnwrittenWordStopsTheModel : Prop :=
  ∀ (s : State) (rest : List Turn),
    ((s.env.turns = [] ∧ rest = []) ∨ s.env.turns = .executor :: rest) →
    s.runState = .running → s.pc.toNat < s.progLen.toNat → s.mem.word? s.pc.toNat = none →
    step s = .fault .unloadedWord

/-- R75: a step that begins with `PC >= PROG_LEN` sets `STATE` to DONE, with `STATUS.EXIT` = 0, and changes nothing else of
the block. -/
def Obligations.RunEndsPastTheLastInstruction : Prop :=
  ∀ (s : State) (rest : List Turn),
    ((s.env.turns = [] ∧ rest = []) ∨ s.env.turns = .executor :: rest) →
    s.runState = .running → s.progLen.toNat ≤ s.pc.toNat →
    ∃ t : State, step s = .next t ∧ t = { s.withTurns rest with runState := .done } ∧
      t.status.toNat / 4 % 2 = 0

/-- R71: outside RUNNING the executor has no step; its turn leaves the state as it is (the model's choice, log entry 5). -/
def Obligations.ExecutorRestsOutsideARun : Prop :=
  ∀ (s : State) (rest : List Turn),
    ((s.env.turns = [] ∧ rest = []) ∨ s.env.turns = .executor :: rest) →
    s.runState ≠ .running → step s = .next (s.withTurns rest)

/-! ### Boundary policies -/

/-- R77, R78, R80, R81, R82: the candidate is exact; in range it is the answer under every policy; out of range `Error`
answers an error, `Saturate` the bound of the direction, and `Wrap` the one value of the range congruent to the candidate. -/
def Obligations.PolicyFunctionOfTheSpec : Prop :=
  (∀ (v : Int) (n : Opnd), candidate .up v n = v + n.toNat ∧ candidate .down v n = v - n.toNat) ∧
  ∀ (cand lo hi : Int) (dir : Dir), lo ≤ hi →
    ((lo ≤ cand ∧ cand ≤ hi) → ∀ pol, applyPolicy cand lo hi pol dir = .ok cand) ∧
    (¬(lo ≤ cand ∧ cand ≤ hi) →
      applyPolicy cand lo hi (some .error) dir = .err ∧
      applyPolicy cand lo hi (some .saturate) .up = .ok hi ∧
      applyPolicy cand lo hi (some .saturate) .down = .ok lo ∧
      ∃ r, applyPolicy cand lo hi (some .wrap) dir = .ok r ∧ lo ≤ r ∧ r ≤ hi ∧ hi - lo + 1 ∣ r - cand ∧
        ∀ r', lo ≤ r' → r' ≤ hi → hi - lo + 1 ∣ r' - cand → r' = r)

/-- R82 with R84, R85, R89, R90: an in-range candidate is stored as is, whatever the policy field holds, and everything else
is left alone. -/
def Obligations.InRangeCandidateIsStored : Prop :=
  (∀ (s : State) (dir : Dir) (n : Opnd) (v : Int), n ≠ 0#29 → s.cell? = some v →
    s.valueMin ≤ candidate dir v n → candidate dir v n ≤ s.valueMax →
    ∃ t, exec (valueInstr dir n) s = .next t ∧ t.cell? = some (candidate dir v n) ∧ ValueFrame s t) ∧
  (∀ (s : State) (dir : Dir) (n : Opnd), n ≠ 0#29 →
    0 ≤ candidate dir s.ptr.toNat n → candidate dir s.ptr.toNat n ≤ s.cellCount.toNat - 1 →
    ∃ t, exec (pointerInstr dir n) s = .next t ∧ (t.ptr.toNat : Int) = candidate dir s.ptr.toNat n ∧
      PointerFrame s t)

/-- R79 with R102, R104: an out-of-range candidate under `Error` faults, with the code of the path, the index and the word of
the instruction recorded, and writes nothing. -/
def Obligations.ErrorPolicyFaultsAndWritesNothing : Prop :=
  (∀ (s : State) (dir : Dir) (n : Opnd) (v : Int), n ≠ 0#29 → s.cell? = some v → s.policy.toNat % 4 = 0 →
    ¬(s.valueMin ≤ candidate dir v n ∧ candidate dir v n ≤ s.valueMax) →
    exec (valueInstr dir n) s =
      .next { s with runState := .fault, faultCode := 1#4, faultPc := s.pc, faultInfo := encode (valueInstr dir n) }) ∧
  (∀ (s : State) (dir : Dir) (n : Opnd), n ≠ 0#29 → s.policy.toNat / 4 % 4 = 0 →
    ¬(0 ≤ candidate dir s.ptr.toNat n ∧ candidate dir s.ptr.toNat n ≤ s.cellCount.toNat - 1) →
    exec (pointerInstr dir n) s =
      .next { s with
        runState := .fault, faultCode := 2#4, faultPc := s.pc, faultInfo := encode (pointerInstr dir n) })

/-- R80: an out-of-range candidate under `Saturate` becomes the upper bound for an increment and the lower one for a
decrement, on whichever side the candidate fell; from a cell in range, and on the pointer path, the direction and the
side agree. -/
def Obligations.SaturatePolicyClampsByDirection : Prop :=
  (∀ (s : State) (dir : Dir) (n : Opnd) (v : Int), n ≠ 0#29 → s.cell? = some v → s.policy.toNat % 4 = 1 →
    ¬(s.valueMin ≤ candidate dir v n ∧ candidate dir v n ≤ s.valueMax) →
    ∃ t, exec (valueInstr dir n) s = .next t ∧
      t.cell? = some (if dir = .up then s.valueMax else s.valueMin) ∧ ValueFrame s t ∧
      (s.valueMin ≤ v → v ≤ s.valueMax →
        (dir = .up → s.valueMax < candidate dir v n) ∧ (dir = .down → candidate dir v n < s.valueMin))) ∧
  (∀ (s : State) (dir : Dir) (n : Opnd), n ≠ 0#29 → s.policy.toNat / 4 % 4 = 1 → 0 < s.cellCount.toNat →
    ¬(0 ≤ candidate dir s.ptr.toNat n ∧ candidate dir s.ptr.toNat n ≤ s.cellCount.toNat - 1) →
    (∃ t, exec (pointerInstr dir n) s = .next t ∧
      t.ptr.toNat = (if dir = .up then s.cellCount.toNat - 1 else 0) ∧ PointerFrame s t) ∧
    (s.ptr.toNat < s.cellCount.toNat →
      (dir = .up → (s.cellCount.toNat : Int) - 1 < candidate dir s.ptr.toNat n) ∧
      (dir = .down → candidate dir s.ptr.toNat n < 0)))

/-- R81: an out-of-range candidate under `Wrap` becomes the one value of the range congruent to it; on the pointer path that
is the remainder by `CELL_COUNT`. -/
def Obligations.WrapPolicyStoresTheCongruentValue : Prop :=
  (∀ (s : State) (dir : Dir) (n : Opnd) (v : Int), n ≠ 0#29 → s.cell? = some v → s.policy.toNat % 4 = 2 →
    s.valueMin ≤ s.valueMax → ¬(s.valueMin ≤ candidate dir v n ∧ candidate dir v n ≤ s.valueMax) →
    ∃ t r, exec (valueInstr dir n) s = .next t ∧ t.cell? = some r ∧ ValueFrame s t ∧
      r = (candidate dir v n - s.valueMin) % (s.valueMax - s.valueMin + 1) + s.valueMin ∧
      s.valueMin ≤ r ∧ r ≤ s.valueMax ∧ s.valueMax - s.valueMin + 1 ∣ r - candidate dir v n) ∧
  (∀ (s : State) (dir : Dir) (n : Opnd), n ≠ 0#29 → s.policy.toNat / 4 % 4 = 2 → 0 < s.cellCount.toNat →
    ¬(0 ≤ candidate dir s.ptr.toNat n ∧ candidate dir s.ptr.toNat n ≤ s.cellCount.toNat - 1) →
    ∃ t, exec (pointerInstr dir n) s = .next t ∧
      (t.ptr.toNat : Int) = candidate dir s.ptr.toNat n % s.cellCount.toNat ∧ PointerFrame s t)

/-- R84, R85, R89, R90, corner cases: what `Wrap` gives when the cell or the pointer stands at the bound it is moved over. -/
def Obligations.WrapAtTheBounds : Prop :=
  (∀ (s t : State) (n : Opnd), n ≠ 0#29 → s.valueMin ≤ s.valueMax → s.policy.toNat % 4 = 2 →
    s.cell? = some s.valueMax → exec (.incValue n) s = .next t →
    t.cell? = some (s.valueMin + ((n.toNat : Int) - 1) % (s.valueMax - s.valueMin + 1))) ∧
  (∀ (s t : State) (n : Opnd), n ≠ 0#29 → s.valueMin ≤ s.valueMax → s.policy.toNat % 4 = 2 →
    s.cell? = some s.valueMin → exec (.decValue n) s = .next t →
    t.cell? = some (s.valueMax - ((n.toNat : Int) - 1) % (s.valueMax - s.valueMin + 1))) ∧
  (∀ (s t : State) (n : Opnd), n ≠ 0#29 → s.policy.toNat / 4 % 4 = 2 → s.ptr.toNat + 1 = s.cellCount.toNat →
    exec (.incPointer n) s = .next t → t.ptr.toNat = (n.toNat - 1) % s.cellCount.toNat) ∧
  (∀ (s t : State) (n : Opnd), n ≠ 0#29 → s.policy.toNat / 4 % 4 = 2 → s.ptr = 0#32 → 0 < s.cellCount.toNat →
    exec (.decPointer n) s = .next t →
    t.ptr.toNat = s.cellCount.toNat - 1 - (n.toNat - 1) % s.cellCount.toNat)

/-- R84, R85: after a value instruction that does not fault the cell lies in the range, wherever it was before. -/
def Obligations.ValueInstructionLeavesTheCellInRange : Prop :=
  ∀ (s t : State) (dir : Dir) (n : Opnd), s.runState = .running → s.valueMin ≤ s.valueMax →
    exec (valueInstr dir n) s = .next t →
    (t.runState = .fault ∧ t.mem = s.mem) ∨
    (t.runState = .running ∧ ∃ r, t.cell? = some r ∧ s.valueMin ≤ r ∧ r ≤ s.valueMax)

/-- R19, R91: a pointer instruction stores only in-range values and touches no memory, fault or no fault. -/
def Obligations.PointerStaysInRange : Prop :=
  ∀ (s : State) (dir : Dir) (n : Opnd), s.ptr.toNat < s.cellCount.toNat → s.policy.toNat / 4 % 4 ≠ 3 →
    ∃ t, exec (pointerInstr dir n) s = .next t ∧ t.ptr.toNat < s.cellCount.toNat ∧ t.mem = s.mem ∧
      t.env = s.env

/-- R87: under `Wrap` from any cell, and under `Saturate` from a cell in range, two value instructions of one direction leave
the cell that one with the sum of their counts leaves. -/
def Obligations.FoldingLawUnderWrapAndSaturate : Prop :=
  ∀ (s : State) (dir : Dir) (a b : Opnd) (v : Int), a ≠ 0#29 → b ≠ 0#29 → a.toNat + b.toNat < 2 ^ 29 →
    s.cell? = some v → s.valueMin ≤ s.valueMax →
    (s.policy.toNat % 4 = 2 ∨ (s.policy.toNat % 4 = 1 ∧ s.valueMin ≤ v ∧ v ≤ s.valueMax)) →
    ∃ t₁ t₂ t₃ r, exec (valueInstr dir a) s = .next t₁ ∧ exec (valueInstr dir b) t₁ = .next t₂ ∧
      exec (valueInstr dir (a + b)) s = .next t₃ ∧ t₂.cell? = some r ∧ t₃.cell? = some r

/-- R87 under `Error`, from a cell in range: both forms fault exactly when the whole move leaves the range; where neither
faults they leave the same cell; where they fault, the folded form leaves the cell as it was, and the split form faults at its
first instruction or, having stored its first result, at its second. -/
def Obligations.FoldingLawUnderError : Prop :=
  ∀ (s : State) (dir : Dir) (a b : Opnd) (v : Int), a ≠ 0#29 → b ≠ 0#29 → a.toNat + b.toNat < 2 ^ 29 →
    s.runState = .running → s.cell? = some v → s.valueMin ≤ v → v ≤ s.valueMax → s.policy.toNat % 4 = 0 →
    ∃ t₁ t₃, exec (valueInstr dir a) s = .next t₁ ∧ exec (valueInstr dir (a + b)) s = .next t₃ ∧
      ((s.valueMin ≤ candidate dir v (a + b) ∧ candidate dir v (a + b) ≤ s.valueMax) →
        ∃ t₂, exec (valueInstr dir b) t₁ = .next t₂ ∧ t₂.runState = .running ∧ t₃.runState = .running ∧
          t₂.cell? = some (candidate dir v (a + b)) ∧ t₃.cell? = some (candidate dir v (a + b))) ∧
      (¬(s.valueMin ≤ candidate dir v (a + b) ∧ candidate dir v (a + b) ≤ s.valueMax) →
        t₃.runState = .fault ∧ t₃.cell? = some v ∧ t₃.faultPc = s.pc ∧
        ((t₁.runState = .fault ∧ t₁.cell? = some v ∧ t₁.faultPc = s.pc) ∨
         (t₁.runState = .running ∧ ∃ t₂, exec (valueInstr dir b) t₁ = .next t₂ ∧ t₂.runState = .fault ∧
            t₂.cell? = some (candidate dir v a) ∧ t₂.faultPc = s.pc + 1#32)))

/-! ### Input and output -/

/-- R93, R94 with R40, R92: one beat of `Read` takes the next token of the input, sets the cell from it, and ends the beat;
nothing else changes, and the rest of the input stays on offer. A byte is stored zero-extended; at EOF the `EP` field says
what is stored, and its reserved encodings never pass START's checks. That queued tokens go before the source's, and how the
input is held, is the model's choice (log entry 3). -/
def Obligations.ReadBeatStoresTheToken : Prop :=
  (∀ (s : State) (n : Opnd) (tok : Token) (v : Int), n ≠ 0#29 → s.env.token? 0 = some tok →
    s.cell? = some v → (tok = .eof → s.epField < 5) →
    ∃ t, exec (.read n) s = .next t ∧ t.cell? = some (s.afterToken v tok) ∧ BeatFrame n s t ∧
      s.SameMemoryBut s.ptr.toNat t ∧ (∀ k, t.env.token? k = s.env.token? (k + 1)) ∧
      (∀ rest, s.env.input = tok :: rest → t.env.input = rest ∧ t.env.source = s.env.source) ∧
      t.env = { s.env with
        input := t.env.input, source := t.env.source, consumed := s.env.consumed + 1 }) ∧
  (∀ (s : State) (v : Int) (b : Byte), s.afterToken v (.byte b) = b.toNat ∧
    (s.epField = 0 → s.afterToken v .eof = 0) ∧ (s.epField = 1 → s.afterToken v .eof = s.valueMin) ∧
    (s.epField = 2 → s.afterToken v .eof = s.valueMax) ∧ (s.epField = 3 → s.afterToken v .eof = -1) ∧
    (s.epField = 4 → s.afterToken v .eof = v) ∧ (5 ≤ s.epField → s.configCause ≠ 0))

/-- R41: with no token on offer a `Read` beat does not happen and the state stays as it is, mid-instruction too (a stall is
a step that changes nothing: the model's choice, log entry 5). -/
def Obligations.ReadStallsWithoutAToken : Prop :=
  ∀ (s : State) (n : Opnd), n ≠ 0#29 → s.env.token? 0 = none → exec (.read n) s = .next s

/-- R95 with R92: one beat of `Write` emits the low byte of the cell, leaves the cell alone, and ends the beat. -/
def Obligations.WriteBeatEmitsTheLowByte : Prop :=
  ∀ (s : State) (n : Opnd) (v : Int), n ≠ 0#29 → s.cell? = some v → s.env.ready = true →
    ∃ t b, exec (.write n) s = .next t ∧ t.env = { s.env with output := s.env.output ++ [b] } ∧
      (b.toNat : Int) = v % 256 ∧ BeatFrame n s t ∧ s.SameMemory t

/-- R44: while the host does not accept, a `Write` beat does not happen and the state stays as it is (log entry 5). -/
def Obligations.WriteStallsUntilAccepted : Prop :=
  ∀ (s : State) (n : Opnd) (v : Int), n ≠ 0#29 → s.cell? = some v → s.env.ready = false →
    exec (.write n) s = .next s

/-- R92, R93: while the input, which may be infinite, has tokens on offer, `Read(n)` makes exactly `n` beats: after `k` of
them `REP` is `k` and `PC` has not moved, and the last one clears `REP` and advances `PC`; the cell is set by each token in
turn, and the input goes on after the tokens taken (the form of the input is the model's, log entry 3). -/
def Obligations.ReadTakesExactlyNTokens : Prop :=
  ∀ (s : State) (n : Opnd) (toks : List Token) (v : Int), n ≠ 0#29 → s.rep = 0#29 →
    (∀ k, k < toks.length → s.env.token? k = toks[k]?) → toks.length ≤ n.toNat → s.cell? = some v → s.epField < 5 →
    ∃ t, execTimes (.read n) toks.length s = .next t ∧ (∀ k, t.env.token? k = s.env.token? (k + toks.length)) ∧
      t.env.consumed = s.env.consumed + toks.length ∧ t.env.output = s.env.output ∧
      t.cell? = some (toks.foldl s.afterToken v) ∧ t.ptr = s.ptr ∧ s.SameMemoryBut s.ptr.toNat t ∧
      (toks.length < n.toNat → t.rep.toNat = toks.length ∧ t.pc = s.pc) ∧
      (toks.length = n.toNat → t.rep = 0#29 ∧ t.pc = s.pc + 1#32)

/-- R92, R95: `Write(n)` with an accepting host makes exactly `n` beats and emits `n` copies of the cell's low byte. -/
def Obligations.WriteEmitsExactlyNCopies : Prop :=
  ∀ (s : State) (n : Opnd) (k : Nat) (v : Int), n ≠ 0#29 → s.rep = 0#29 → k ≤ n.toNat → s.cell? = some v →
    s.env.ready = true →
    ∃ t, execTimes (.write n) k s = .next t ∧
      t.env = { s.env with output := s.env.output ++ List.replicate k (low8 v) } ∧ t.mem = s.mem ∧
      t.ptr = s.ptr ∧ (k < n.toNat → t.rep.toNat = k ∧ t.pc = s.pc) ∧
      (k = n.toNat → t.rep = 0#29 ∧ t.pc = s.pc + 1#32)

/-- R96: `Read(a + b)` leaves what `Read(a); Read(b)` leaves, and `Write(a + b)` what `Write(a); Write(b)` leaves, in every
part of the state but `PC`, which the split form advances once more. -/
def Obligations.ReadAndWriteMaySplit : Prop :=
  (∀ (s : State) (a b : Opnd) (v : Int), a ≠ 0#29 → b ≠ 0#29 → a.toNat + b.toNat < 2 ^ 29 → s.rep = 0#29 →
    (∀ k, k < a.toNat + b.toNat → (s.env.token? k).isSome = true) → s.cell? = some v → s.epField < 5 →
    ∃ t₁ t₂ t₃, execTimes (.read a) a.toNat s = .next t₁ ∧ execTimes (.read b) b.toNat t₁ = .next t₂ ∧
      execTimes (.read (a + b)) (a + b).toNat s = .next t₃ ∧
      t₂ = { t₃ with pc := t₃.pc + 1#32 } ∧ t₃.pc = s.pc + 1#32) ∧
  (∀ (s : State) (a b : Opnd) (v : Int), a ≠ 0#29 → b ≠ 0#29 → a.toNat + b.toNat < 2 ^ 29 → s.rep = 0#29 →
    s.cell? = some v → s.env.ready = true →
    ∃ t₁ t₂ t₃, execTimes (.write a) a.toNat s = .next t₁ ∧ execTimes (.write b) b.toNat t₁ = .next t₂ ∧
      execTimes (.write (a + b)) (a + b).toNat s = .next t₃ ∧
      t₂ = { t₃ with pc := t₃.pc + 1#32 } ∧ t₃.pc = s.pc + 1#32)

/-! ### Loops -/

/-- R97: a legal `LoopOpen(t)` goes to `t + 1` when the whole cell is zero and to `PC + 1` otherwise, and writes nothing
but `PC`; an illegal one faults, whatever the cell. -/
def Obligations.LoopOpenSkipsOnZero : Prop :=
  ∀ (s : State) (t : Opnd),
    (∀ v, s.pc.toNat < t.toNat → t.toNat < s.progLen.toNat → s.cell? = some v →
      exec (.loopOpen t) s =
        .next { s with pc := BitVec.ofNat 32 (if v = 0 then t.toNat + 1 else s.pc.toNat + 1) }) ∧
    (¬(s.pc.toNat < t.toNat ∧ t.toNat < s.progLen.toNat) →
      exec (.loopOpen t) s =
        .next { s with runState := .fault, faultCode := 4#4, faultPc := s.pc, faultInfo := encode (.loopOpen t) }) ∧
    (encode (.loopOpen t)).toNat = 0xC0000000 + t.toNat

/-- R98: a legal `LoopClose(t)` goes to `t + 1` when the whole cell is not zero and to `PC + 1` otherwise, and writes
nothing but `PC`; an illegal one faults, whatever the cell. -/
def Obligations.LoopCloseRepeatsOnNonZero : Prop :=
  ∀ (s : State) (t : Opnd),
    (∀ v, t.toNat < s.pc.toNat → s.cell? = some v →
      exec (.loopClose t) s =
        .next { s with pc := BitVec.ofNat 32 (if v = 0 then s.pc.toNat + 1 else t.toNat + 1) }) ∧
    (s.pc.toNat ≤ t.toNat →
      exec (.loopClose t) s =
        .next { s with runState := .fault, faultCode := 4#4, faultPc := s.pc, faultInfo := encode (.loopClose t) }) ∧
    (encode (.loopClose t)).toNat = 0xE0000000 + t.toNat

/-- R99: a taken bracket of a pair leaves the state that going to its partner and executing that would leave. -/
def Obligations.BothReadingsOfABracketAgree : Prop :=
  (∀ (s : State) (t j : Opnd) (v : Int), t.toNat < s.pc.toNat → s.pc.toNat = j.toNat →
    j.toNat < s.progLen.toNat → s.cell? = some v → v ≠ 0 →
    exec (.loopOpen j) { s with pc := t.setWidth 32 } = exec (.loopClose t) s) ∧
  (∀ (s : State) (t i : Opnd), s.pc.toNat < t.toNat → t.toNat < s.progLen.toNat → s.pc.toNat = i.toNat →
    s.cell? = some 0 →
    exec (.loopClose i) { s with pc := t.setWidth 32 } = exec (.loopOpen t) s)

/-- R100: a loop is left only on a zero cell and its body entered only on a non-zero one, at the open and at the close. -/
def Obligations.LoopIsLeftOnlyOnZero : Prop :=
  ∀ (s u : State) (t : Opnd), s.runState = .running → u.runState = .running →
    (exec (.loopClose t) s = .next u →
      (u.pc = s.pc + 1#32 ↔ s.cell? = some 0) ∧ (u.pc = t.setWidth 32 + 1#32 ↔ ∃ v, s.cell? = some v ∧ v ≠ 0)) ∧
    (exec (.loopOpen t) s = .next u →
      (u.pc = t.setWidth 32 + 1#32 ↔ s.cell? = some 0) ∧ (u.pc = s.pc + 1#32 ↔ ∃ v, s.cell? = some v ∧ v ≠ 0))

/-! ### Faults -/

/-- R61 with R102, R104: an illegal word raises `IllegalInstruction` and has no other effect, and a legal one never raises
it. -/
def Obligations.IllegalWordsFaultExactly : Prop :=
  ∀ (s : State) (i : Instr),
    (IllegalHere s i →
      exec i s =
        .next { s with runState := .fault, faultCode := 4#4, faultPc := s.pc, faultInfo := encode i }) ∧
    (¬IllegalHere s i → s.runState = .running → ∀ t, exec i s = .next t → t.runState = .fault → t.faultCode ≠ 4#4)

/-- R104: a step that faults writes `STATE` and the fault record, with the code of the cause and the instruction's own index
and word, and nothing else: no register, no cell, no token, no byte. -/
def Obligations.FaultsArePrecise : Prop :=
  ∀ (s t : State) (i : Instr), s.runState = .running → exec i s = .next t → t.runState = .fault →
    ∃ code : BitVec 4,
      t = { s with runState := .fault, faultCode := code, faultPc := s.pc, faultInfo := encode i } ∧
      (IllegalHere s i → code = 4#4) ∧
      (¬IllegalHere s i → (∃ dir n, i = valueInstr dir n ∧ code = 1#4) ∨ ∃ dir n, i = pointerInstr dir n ∧ code = 2#4) ∧
      t.status.toNat % 8 = 7

/-- R105: which fault a legal instruction can raise. -/
def Obligations.EachFamilyRaisesItsOwnFault : Prop :=
  ∀ (s t : State) (i : Instr), s.runState = .running → ¬IllegalHere s i → exec i s = .next t →
    (∀ dir n, i = valueInstr dir n → t.runState = .running ∨ (t.runState = .fault ∧ t.faultCode = 1#4)) ∧
    (∀ dir n, i = pointerInstr dir n → t.runState = .running ∨ (t.runState = .fault ∧ t.faultCode = 2#4)) ∧
    (∀ n, i = .read n ∨ i = .write n ∨ i = .loopOpen n ∨ i = .loopClose n → t.runState = .running)

/-- R106: the record of a run that ended on a fault stays through every turn but a START and a reset. -/
def Obligations.FaultRecordStaysUntilStartOrReset : Prop :=
  ∀ s t : State, s.params.ok = true → s.runState = .fault → step s = .next t →
    (∀ a rest, s.env.turns = .host a :: rest → a.startsRun = false ∧ a ≠ .reset) →
    s.SameRecord t ∧ t.pc = s.pc ∧ t.ptr = s.ptr

/-! ### START, reset and the host -/

/-- R103: the first failing check, in the order of the table, as a number; 0 where every check passes. -/
def Obligations.ConfigurationChecksInOrder : Prop :=
  ∀ s : State, s.configCause = s.firstFailingCheck

/-- R117: writing 1 to `CONTROL.START`: ignored in a run; with a failing check, the fault of R103; else a new run, in the
state created at execution start: cursor, pointer, beat counter, fault record and every addressable cell 0; the configuration,
the instruction words, the cells above and the streams stay as they were. The model's record of the run (`outputMark`,
`consumedMark`, `runCells`, `held`) is begun anew, which is no rule of the spec but the model's choice, log entry 6. -/
def Obligations.StartBeginsAFreshRun : Prop :=
  ∀ (s : State) (value : Nat), s.params.ok = true → value % 2 = 1 →
    (s.runState = .running → hostAct (.writeReg 0 value) s = s) ∧
    (s.runState ≠ .running → ∃ t, t = hostAct (.writeReg 0 value) s ∧
      t.pc = 0#32 ∧ t.ptr = 0#32 ∧ t.rep = 0#29 ∧ t.faultPc = 0#32 ∧ s.SameConfig t ∧
      (∀ a, t.mem.word? a = s.mem.word? a) ∧
      t.env = { s.env with
        outputMark := s.env.output.length, consumedMark := s.env.consumed, runCells := s.cellCount.toNat
        held := [(0#32, 0#32)] } ∧
      (s.firstFailingCheck = 0 → t.runState = .running ∧ t.faultCode = 0#4 ∧ t.faultInfo = 0#32 ∧
        (∀ a, a < s.cellCount.toNat → t.mem.cell? a = some 0) ∧
        (∀ a, s.cellCount.toNat ≤ a → t.mem.rawCell a = s.mem.rawCell a)) ∧
      (s.firstFailingCheck ≠ 0 → t.runState = .fault ∧ t.faultCode = 3#4 ∧
        t.faultInfo.toNat = s.firstFailingCheck ∧ t.mem = s.mem))

/-- R103: a START whose configuration fails a check ends in FAULT with code 3 and the number of the first failing check; no
instruction executes, the tape is not cleared, no byte is emitted and no token consumed. Outside a run the executor has no
step (R71); that its turn after such a START is a step that changes nothing is the model's choice, log entry 5. -/
def Obligations.StartWithABadConfigurationFaults : Prop :=
  ∀ (s : State) (value : Nat), s.params.ok = true → value % 2 = 1 → s.runState ≠ .running → s.firstFailingCheck ≠ 0 →
    ∃ t, t = hostAct (.writeReg 0 value) s ∧ t.runState = .fault ∧ t.faultCode = 3#4 ∧ t.faultPc = 0#32 ∧
      t.faultInfo.toNat = s.firstFailingCheck ∧ t.pc = 0#32 ∧ t.ptr = 0#32 ∧ t.rep = 0#29 ∧ t.mem = s.mem ∧
      s.SameConfig t ∧ t.env.output = s.env.output ∧ t.env.consumed = s.env.consumed ∧
      t.env.input = s.env.input ∧ t.env.source = s.env.source ∧ executorTurn t = .next t

/-- R35, R46: while RUNNING every host write, of a register (START among them) or of an instruction word, is ignored; and a
host read of any register is answered and leaves the block as it is. -/
def Obligations.HostWritesAreIgnoredWhileRunning : Prop :=
  ∀ s : State, s.runState = .running →
    (∀ offset value, hostAct (.writeReg offset value) s = s) ∧
    (∀ index w, hostAct (.writeImage index w) s = s) ∧
    (∀ offset, ∃ r k, hostAct (.readReg offset) s =
      { s with env := { s.env with replies := s.env.replies ++ [r], draws := k } })

/-- R36: the reset values; the memories hold no specified content; the reset configuration starts a run in the default
instance, and fails check 5 in one with fewer than 30000 cells. -/
def Obligations.ResetValues : Prop :=
  State.reset.runState = .idle ∧ State.reset.pc = 0#32 ∧ State.reset.ptr = 0#32 ∧ State.reset.rep = 0#29 ∧
  State.reset.faultCode = 0#4 ∧ State.reset.faultPc = 0#32 ∧ State.reset.faultInfo = 0#32 ∧
  State.reset.status.toNat / 4 % 2 = 0 ∧
  State.reset.valueMin = 0 ∧ State.reset.valueMax = 255 ∧ State.reset.cellCount.toNat = 30000 ∧
  State.reset.progLen = 0#32 ∧ State.reset.policy = 0x00000002#32 ∧
  State.reset.valuePolicy = some .wrap ∧ State.reset.pointerPolicy = some .error ∧
  State.reset.eofPolicy = some .zero ∧
  (∀ a, State.reset.mem.cell? a = none) ∧ (∀ a, State.reset.mem.word? a = none) ∧
  State.reset.firstFailingCheck = 0 ∧
  (∀ p : Params, p.tapeDepth < 30000 → ({ State.reset with params := p } : State).firstFailingCheck = 5)

/-- R116: reset, at any time, sets every register to its reset value and leaves the memories, the tokens on offer and the
bytes emitted as they are. -/
def Obligations.ResetKeepsTheMemoriesAndTheStreams : Prop :=
  ∀ s : State, hostAct .reset s =
    { s with
      runState := .idle, pc := 0#32, ptr := 0#32, rep := 0#29, valueMin := 0, valueMax := 255, cellCount := 30000#32
      progLen := 0#32, policy := 0x00000002#32, faultCode := 0#4, faultPc := 0#32, faultInfo := 0#32 }

/-- R31: the layout of `STATUS`, that a read of it returns that word, and that a write to it is ignored. That the read is 0
above bit 31 on a port wider than 32 bits is no rule of the spec but the model's choice, log entry 19. -/
def Obligations.StatusLayout : Prop :=
  ∀ s : State,
    s.status.toNat =
      (match s.runState with | .idle => 0 | .running => 1 | .done => 2 | .fault => 3 + 4) + 16 * s.faultCode.toNat ∧
    (s.Inv → s.runState ≠ .fault → s.status.toNat / 16 = 0) ∧
    s.readReg 0x04 = (s.status.toNat, s) ∧ ∀ value, hostAct (.writeReg 0x04 value) s = s

/-- R34, R48: the words the register map returns; a signed register is sign-extended to the port's width; reserved and
misaligned offsets and `CONTROL` read 0 and change nothing. That `CELL_COUNT`, `PROG_LEN`, `POLICY`, `FAULT_PC` and
`FAULT_INFO` read 0 above bit 31 on a port wider than 32 bits is no rule of the spec but the model's choice, log entry 19. -/
def Obligations.RegisterMapReads : Prop :=
  ∀ s : State, s.params.ok = true → fitsCell s.params s.valueMin → fitsCell s.params s.valueMax →
    s.readReg 0x00 = (0, s) ∧
    (∃ r, s.readReg 0x08 = (r, s) ∧ r < 2 ^ s.params.hostW ∧
      (r : Int) = if 0 ≤ s.valueMin then s.valueMin else s.valueMin + 2 ^ s.params.hostW) ∧
    (∃ r, s.readReg 0x0C = (r, s) ∧ r < 2 ^ s.params.hostW ∧
      (r : Int) = if 0 ≤ s.valueMax then s.valueMax else s.valueMax + 2 ^ s.params.hostW) ∧
    s.readReg 0x10 = (s.cellCount.toNat, s) ∧ s.readReg 0x14 = (s.progLen.toNat, s) ∧
    s.readReg 0x18 = (s.policy.toNat, s) ∧ s.readReg 0x24 = (s.faultPc.toNat, s) ∧
    s.readReg 0x28 = (s.faultInfo.toNat, s) ∧
    (∀ offset, offset % 4 ≠ 0 ∨ 0x2C ≤ offset →
      s.readReg offset = (0, s) ∧ ∀ value, hostAct (.writeReg offset value) s = s)

/-- R25 to R28, R34: outside a run a write of a configuration register sets that register and nothing else; a value bound
takes the low `W_CELL` bits of the word as a signed number, and the read-only registers ignore the write. That `CELL_COUNT`
and `PROG_LEN` take the low 32 bits of a word of 2^32 and more, on a port wider than 32 bits, is no rule of the spec but the
model's choice, log entry 8. -/
def Obligations.RegisterMapWrites : Prop :=
  ∀ (s : State) (value : Nat), s.params.ok = true → s.runState ≠ .running → value < 2 ^ s.params.hostW →
    (∃ v, hostAct (.writeReg 0x08 value) s = { s with valueMin := v } ∧ fitsCell s.params v ∧
      (2 ^ s.params.wCell : Int) ∣ v - value) ∧
    (∃ v, hostAct (.writeReg 0x0C value) s = { s with valueMax := v } ∧ fitsCell s.params v ∧
      (2 ^ s.params.wCell : Int) ∣ v - value) ∧
    hostAct (.writeReg 0x10 value) s = { s with cellCount := BitVec.ofNat 32 value } ∧
    hostAct (.writeReg 0x14 value) s = { s with progLen := BitVec.ofNat 32 value } ∧
    (value % 2 = 0 → hostAct (.writeReg 0x00 value) s = s) ∧
    (∀ offset, offset = 0x1C ∨ offset = 0x20 ∨ offset = 0x24 ∨ offset = 0x28 →
      hostAct (.writeReg offset value) s = s)

/-- R29: outside a run a write of `POLICY` keeps bits [6:0] exactly as written, reserved encodings among them, and the bits
above read 0; nothing else changes. For a word below 2^32 that is R29; that a wider word is first taken modulo 2^HOST_W and
that its bits above 31 are dropped is the model's choice, log entry 8. -/
def Obligations.PolicyKeepsItsSevenBits : Prop :=
  ∀ (s : State) (value : Nat), s.params.ok = true → s.runState ≠ .running →
    ∃ p : Word, p.toNat = value % 128 ∧ hostAct (.writeReg 0x18 value) s = { s with policy := p }

/-- R32: outside a run the host reads `PC` and `PTR` as the run left them; during a run it reads a value that register held
at some step boundary of the run (of the recorded ones, log entry 6); a write to either is ignored. -/
def Obligations.CursorAndPointerReads : Prop :=
  ∀ s : State,
    (s.runState ≠ .running → s.readReg 0x1C = (s.pc.toNat, s) ∧ s.readReg 0x20 = (s.ptr.toNat, s)) ∧
    (s.runState = .running → s.env.held ≠ [] →
      (∃ p ∈ s.env.held, (s.readReg 0x1C).1 = p.1.toNat) ∧ (∃ p ∈ s.env.held, (s.readReg 0x20).1 = p.2.toNat)) ∧
    (∀ offset value, offset = 0x1C ∨ offset = 0x20 → hostAct (.writeReg offset value) s = s)

/-- R46: the image port writes and reads back words inside the memory, outside a run; the tape port reads a cell as the last
run left it; an index past the depth reads 0 and ignores a write; no read changes a memory. -/
def Obligations.MemoryPorts : Prop :=
  ∀ (s : State) (index : Nat) (w : Word),
    (s.runState ≠ .running → index < s.params.imemDepth →
      ((hostAct (.writeImage index w) s).readImage index).1 = w.toNat ∧
      (∀ b, b ≠ index → (hostAct (.writeImage index w) s).mem.word? b = s.mem.word? b) ∧
      (∀ b, (hostAct (.writeImage index w) s).mem.rawCell b = s.mem.rawCell b)) ∧
    (s.params.imemDepth ≤ index → s.readImage index = (0, s) ∧ hostAct (.writeImage index w) s = s) ∧
    (s.params.tapeDepth ≤ index → s.readTape index = (0, s)) ∧
    (∀ v, s.runState ≠ .running → index < s.params.tapeDepth → s.mem.cell? index = some v →
      s.readTape index = ((v % 2 ^ s.params.hostW).toNat, s)) ∧
    (s.readImage index).2.mem = s.mem ∧ (s.readTape index).2.mem = s.mem

/-! ### The machine as a whole -/

/-- R24 with what it rests on: every step, of the executor or of the host, keeps the invariant. -/
def Obligations.EveryStepKeepsTheInvariant : Prop :=
  ∀ s t : State, s.Inv → step s = .next t → t.Inv

/-- The invariant holds right after reset, in every instance of the block and whatever the host will do. -/
def Obligations.InvariantHoldsAtReset : Prop :=
  State.reset.Inv ∧
  ∀ (p : Params) (env : Env), p.ok = true → ({ State.reset with params := p, env := env } : State).Inv

/-- R24, clause by clause, in every state the block reaches from reset, in every instance and under every behaviour of the
host. -/
def Obligations.ReachableStatesMeetTheSpecInvariants : Prop :=
  ∀ (p : Params) (env : Env) (k : Nat) (s : State), p.ok = true →
    Host.Core.run core k ({ State.reset with params := p, env := env } : State) = .next s →
    (s.runState = .running → 1 ≤ s.cellCount.toNat ∧ s.cellCount.toNat ≤ p.tapeDepth ∧ s.ptr.toNat < s.cellCount.toNat) ∧
    (s.runState = .running → s.pc.toNat ≤ s.progLen.toNat ∧ s.progLen.toNat ≤ p.imemDepth) ∧
    (s.runState = .running → s.valueMin ≤ s.valueMax ∧ s.policy.toNat % 4 < 3 ∧ s.policy.toNat / 4 % 4 < 3 ∧
      s.policy.toNat / 16 % 8 < 5) ∧
    (s.rep = 0#29 ∨ (s.pc.toNat < s.progLen.toNat ∧ ∃ w n, s.mem.word? s.pc.toNat = some w ∧
      (decode w = .read n ∨ decode w = .write n) ∧ s.rep.toNat < n.toNat))

/-- From a state that meets the invariant, with the next word written, the machine always has a next state: neither the
model's faults (log entry 10) nor a refusal can stop it (R73, R39, R78). That a stall and an executor's turn outside a run,
where the spec has no step, have a next state too is the model's choice, log entry 5. -/
def Obligations.TheMachineNeverStops : Prop :=
  ∀ s : State, s.Inv → s.NextWordLoaded → ∃ t, step s = .next t

/-- R23: the only changes of `STATE`: reset to IDLE, START from outside a run to RUNNING or, on a configuration error, to
FAULT, and in a run the executor's turn to DONE past the last instruction or to FAULT. -/
def Obligations.OnlyTheListedTransitionsOfState : Prop :=
  (RunState.idle.bits = 0#2 ∧ RunState.running.bits = 1#2 ∧ RunState.done.bits = 2#2 ∧ RunState.fault.bits = 3#2) ∧
  ∀ s t : State, s.params.ok = true → step s = .next t → t.runState ≠ s.runState →
    (∃ rest, s.env.turns = .host .reset :: rest ∧ t.runState = .idle) ∨
    (∃ a rest, s.env.turns = .host a :: rest ∧ a.startsRun = true ∧ s.runState ≠ .running ∧
      ((s.firstFailingCheck = 0 ∧ t.runState = .running) ∨ (s.firstFailingCheck ≠ 0 ∧ t.runState = .fault))) ∨
    ((s.env.turns = [] ∨ ∃ rest, s.env.turns = .executor :: rest) ∧ s.runState = .running ∧
      ((s.progLen.toNat ≤ s.pc.toNat ∧ t.runState = .done) ∨ (s.pc.toNat < s.progLen.toNat ∧ t.runState = .fault)))

/-- R110, R38: the executor never writes a configuration register or an instruction word; the host, but for START and
reset, never writes the tape, `PTR`, `PC`, `REP`, `STATE` or the fault record; nobody changes the parameters. -/
def Obligations.ExecutorAndHostWriteApart : Prop :=
  (∀ s t : State, executorTurn s = .next t → s.SameConfig t ∧ ∀ b, t.mem.word? b = s.mem.word? b) ∧
  (∀ (s : State) (a : HostAction), s.params.ok = true → a.startsRun = false → a ≠ .reset →
    s.SameRecord (hostAct a s) ∧ (hostAct a s).pc = s.pc ∧ (hostAct a s).ptr = s.ptr ∧ (hostAct a s).rep = s.rep ∧
    (hostAct a s).mem.tapeLive = s.mem.tapeLive ∧ ∀ b, (hostAct a s).mem.rawCell b = s.mem.rawCell b) ∧
  (∀ s t : State, step s = .next t → t.params = s.params)

/-- R39, R45: one turn of the executor changes no cell but the current one, emits at most one byte, at the end of the
output, and takes at most one token, the next one of the input; outside a run it emits and takes nothing (that it is then a
step that changes nothing is the model's choice, log entry 5). -/
def Obligations.OneTurnTouchesOneCellAndOneToken : Prop :=
  ∀ s t : State, executorTurn s = .next t →
    (∀ b, b ≠ s.ptr.toNat → t.mem.rawCell b = s.mem.rawCell b) ∧ t.mem.tapeLive = s.mem.tapeLive ∧
    (t.env.output = s.env.output ∨ ∃ b, t.env.output = s.env.output ++ [b]) ∧
    (t.env.input = s.env.input ∧ t.env.source = s.env.source ∧ t.env.consumed = s.env.consumed ∨
      (s.env.token? 0).isSome = true ∧ (∀ k, t.env.token? k = s.env.token? (k + 1)) ∧
        t.env.consumed = s.env.consumed + 1) ∧
    (s.runState ≠ .running → t = s)

/-- R83 with R75, R104: the step that ends a run changes nothing that is observed of it: its output, its tokens, `PC`,
`PTR` and the cells are those before the step, and the exit status is 1 exactly on a fault. In a state of the invariant the
cells are `TAPE[0..CELL_COUNT − 1]`, each with its value. -/
def Obligations.LastStepOnlyEndsTheRun : Prop :=
  ∀ s t : State, s.runState = .running → executorTurn s = .next t → t.runState ≠ .running →
    ∃ e, t.runEnd? = some e ∧ e.output = s.env.output.drop s.env.outputMark ∧
      e.consumed = s.env.consumed - s.env.consumedMark ∧ e.pc = s.pc ∧ e.ptr = s.ptr ∧
      e.cells = (List.range s.env.runCells).map s.mem.cell? ∧
      (s.Inv → e.cells = (List.range s.cellCount.toNat).map fun a => some (s.mem.rawCell a)) ∧
      e.faultCode = t.faultCode ∧ e.faultPc = t.faultPc ∧ e.faultInfo = t.faultInfo ∧
      (e.exit = 1#1 ↔ t.runState = .fault)

/-- R83 with R103, R106, R117: a run in progress has no observation; a START that ends in a configuration fault is itself the
end of its run: exit status 1, code 3 and the cause, no output, no token, `PC` and `PTR` 0, and the cells
`TAPE[0..CELL_COUNT − 1]` of its own `CELL_COUNT`, as they were before it (none where their content is unspecified, log
entry 11); and the observation of an ended run stays through every turn that is neither a START nor a reset, whatever the
host writes (that the executor then has turns that change nothing is the model's choice, log entry 5). -/
def Obligations.ObservationOfAnEndedRun : Prop :=
  (∀ s : State, s.runState = .running → s.runEnd? = none) ∧
  (∀ (s : State) (value : Nat), s.params.ok = true → value % 2 = 1 → s.runState ≠ .running → s.firstFailingCheck ≠ 0 →
    (hostAct (.writeReg 0 value) s).runEnd? = some
      { exit := 1#1, faultCode := 3#4, faultPc := 0#32, faultInfo := BitVec.ofNat 32 s.firstFailingCheck
        output := [], consumed := 0, ptr := 0#32, pc := 0#32
        cells := (List.range s.cellCount.toNat).map s.mem.cell? }) ∧
  ∀ s t : State, s.params.ok = true → s.runState ≠ .running → step s = .next t →
    (∀ a rest, s.env.turns = .host a :: rest → a.startsRun = false ∧ a ≠ .reset) →
    t.runEnd? = s.runEnd?

/-- R119 with R117: a START that does not fault makes the launch premises P1 to P3 true; P4 and P5, an image written before
it and an input that may be infinite, are the host's and carry over (that the input is held as a queue and a source is the
model's choice, log entry 3). -/
def Obligations.StartMeetsTheLaunchPremises : Prop :=
  ∀ (s : State) (value : Nat) (image : List Word) (input : Nat → Option Token), s.params.ok = true → value % 2 = 1 →
    s.runState ≠ .running → s.firstFailingCheck = 0 → s.progLen.toNat = image.length →
    (∀ a, a < image.length → s.mem.word? a = image[a]?) → (∀ k, s.env.token? k = input k) →
    (hostAct (.writeReg 0 value) s).Launched image input

/-! ### The image producer -/

/-- R66: a run of `k` foldable symbols, for every `k` a word can count, becomes exactly one instruction with count `k`, in
any image of at least one word. -/
def Obligations.FoldedRunBecomesOneInstruction : Prop :=
  ∀ (p : Params) (k : Nat), 1 ≤ p.imemDepth → 1 ≤ k → k < 2 ^ 29 →
    produce p (List.replicate k '+') = .ok [.incValue (BitVec.ofNat 29 k)] ∧
    produce p (List.replicate k '-') = .ok [.decValue (BitVec.ofNat 29 k)] ∧
    produce p (List.replicate k '>') = .ok [.incPointer (BitVec.ofNat 29 k)] ∧
    produce p (List.replicate k '<') = .ok [.decPointer (BitVec.ofNat 29 k)]

/-- R67: an image results only from a source whose brackets balance: as many closes as opens in all, and in no prefix more
closes than opens. -/
def Obligations.OnlyBalancedSourcesHaveAnImage : Prop :=
  ∀ (p : Params) (source : List Char) (code : List Instr), produce p source = .ok code →
    source.count '[' = source.count ']' ∧
    ∀ k, (source.take k).count ']' ≤ (source.take k).count '['

/-- R68: every image the producer makes meets the pairing invariant, has only positive counts, and fits the memory. -/
def Obligations.ProducedImagesAreWellPaired : Prop :=
  ∀ (p : Params) (source : List Char) (code : List Instr), p.ok = true → produce p source = .ok code →
    code.length ≤ p.imemDepth ∧ (∀ i ∈ code, i.wellFormed = true) ∧
    (∀ (i : Nat) (t : Opnd), code[i]? = some (.loopOpen t) →
      i < t.toNat ∧ code[t.toNat]? = some (.loopClose (BitVec.ofNat 29 i)) ∧
      ∀ k u, i < k → k < t.toNat → code[k]?.bind Instr.partner? = some u → i < u ∧ u < t.toNat) ∧
    (∀ (j : Nat) (t : Opnd), code[j]? = some (.loopClose t) →
      t.toNat < j ∧ code[t.toNat]? = some (.loopOpen (BitVec.ofNat 29 j)))
end

