-- ==== Sys2Proof/Laws/Memory.lean ====
section
/-! SUPPORT. The laws of the two memories: a read after a write to the same place gives the value written, a write leaves
every other place alone, and every operation keeps the canonical form. -/

namespace Sys2Proof.Machine

variable {α : Type}

/-! ### Reading back -/

theorem entry?_putEntry (l : List (Nat × α)) (a b : Nat) (x : α) :
    entry? (putEntry l a x) b = if a = b then some x else entry? l b := by
  induction l with
  | nil => simp [putEntry, entry?]
  | cons e rest ih =>
    obtain ⟨k, v⟩ := e
    simp only [putEntry]
    split
    · simp [entry?]
    · split
      · subst k; simp only [entry?]; split <;> rfl
      · simp only [entry?, ih]
        split
        · rw [if_neg (by omega)]
        · rfl

theorem entry?_dropEntry (l : List (Nat × α)) (a b : Nat) :
    entry? (dropEntry l a) b = if a = b then none else entry? l b := by
  induction l with
  | nil => simp [dropEntry, entry?]
  | cons e rest ih =>
    obtain ⟨k, v⟩ := e
    simp only [dropEntry, List.filter_cons] at ih ⊢
    by_cases hk : k = a
    · subst k; simp only [ne_eq, not_true_eq_false, decide_false, Bool.false_eq_true, if_false, ih, entry?]
      split <;> rfl
    · simp only [ne_eq, hk, not_false_eq_true, decide_true, if_true, entry?, ih]
      split
      · rw [if_neg (by omega)]
      · rfl

theorem entry?_filter_le (l : List (Nat × α)) (n b : Nat) :
    entry? (l.filter fun e => decide (n ≤ e.1)) b = if n ≤ b then entry? l b else none := by
  induction l with
  | nil => simp [entry?]
  | cons e rest ih =>
    obtain ⟨k, v⟩ := e
    simp only [List.filter_cons]
    by_cases hk : n ≤ k
    · simp only [hk, decide_true, if_true, entry?, ih]
      split
      · subst b; simp [hk]
      · rfl
    · simp only [hk, decide_false, Bool.false_eq_true, if_false, ih, entry?]
      split
      · rw [if_neg (by omega)]
      · rfl

/-! ### Rising lists stay rising -/

theorem mem_putEntry {l : List (Nat × α)} {a : Nat} {x : α} {e : Nat × α} (h : e ∈ putEntry l a x) :
    e = (a, x) ∨ e ∈ l := by
  induction l with
  | nil => simpa [putEntry] using h
  | cons d rest ih =>
    simp only [putEntry] at h
    split at h
    · simpa using h
    · split at h
      · simp only [List.mem_cons] at h ⊢; tauto
      · rcases List.mem_cons.1 h with h | h
        · exact .inr (h ▸ List.mem_cons_self)
        · exact (ih h).imp_right (List.mem_cons_of_mem _)

theorem rising_putEntry {l : List (Nat × α)} (a : Nat) (x : α) (h : rising l = true) :
    rising (putEntry l a x) = true := by
  induction l with
  | nil => simp [putEntry, rising]
  | cons d rest ih =>
    obtain ⟨k, v⟩ := d
    simp only [rising, Bool.and_eq_true, List.all_eq_true, decide_eq_true_eq] at h
    simp only [putEntry]
    split
    · simp only [rising, List.all_cons, Bool.and_eq_true, List.all_eq_true, decide_eq_true_eq]
      exact ⟨⟨‹_›, fun e he => Nat.lt_trans ‹_› (h.1 e he)⟩, h⟩
    · split
      · subst k; simpa only [rising, Bool.and_eq_true, List.all_eq_true, decide_eq_true_eq] using h
      · simp only [rising, Bool.and_eq_true, List.all_eq_true, decide_eq_true_eq]
        refine ⟨fun e he => ?_, ih h.2⟩
        rcases mem_putEntry he with rfl | he
        · show k < a; omega
        · exact h.1 e he

theorem rising_filter {l : List (Nat × α)} (p : Nat × α → Bool) (h : rising l = true) :
    rising (l.filter p) = true := by
  induction l with
  | nil => rfl
  | cons d rest ih =>
    simp only [rising, Bool.and_eq_true, List.all_eq_true, decide_eq_true_eq] at h
    simp only [List.filter_cons]
    split
    · simp only [rising, Bool.and_eq_true, List.all_eq_true, decide_eq_true_eq]
      exact ⟨fun e he => h.1 e (List.mem_filter.1 he).1, ih h.2⟩
    · exact ih h.2

/-! ### The memories -/

variable (m : Memory)

@[simp] theorem Memory.word?_setWord (a b : Nat) (w : Word) :
    (m.setWord a w).word? b = if a = b then some w else m.word? b :=
  entry?_putEntry m.imem a b w

@[simp] theorem Memory.rawCell_setWord (a b : Nat) (w : Word) : (m.setWord a w).rawCell b = m.rawCell b := rfl
@[simp] theorem Memory.cell?_setWord (a b : Nat) (w : Word) : (m.setWord a w).cell? b = m.cell? b := rfl
@[simp] theorem Memory.tapeLive_setWord (a : Nat) (w : Word) : (m.setWord a w).tapeLive = m.tapeLive := rfl
@[simp] theorem Memory.word?_setCell (a b : Nat) (v : Int) : (m.setCell a v).word? b = m.word? b := rfl
@[simp] theorem Memory.imem_setCell (a : Nat) (v : Int) : (m.setCell a v).imem = m.imem := rfl
@[simp] theorem Memory.tapeLive_setCell (a : Nat) (v : Int) : (m.setCell a v).tapeLive = m.tapeLive := rfl
@[simp] theorem Memory.word?_clearCells (n b : Nat) : (m.clearCells n).word? b = m.word? b := rfl
@[simp] theorem Memory.tapeLive_clearCells (n : Nat) : (m.clearCells n).tapeLive = n := rfl

/-- A cell reads back as written, and every other cell as before. -/
@[simp] theorem Memory.rawCell_setCell (a b : Nat) (v : Int) :
    (m.setCell a v).rawCell b = if a = b then v else m.rawCell b := by
  simp only [Memory.rawCell, Memory.setCell]
  by_cases hv : v = 0
  · simp only [hv, if_true, entry?_dropEntry]; split <;> rfl
  · simp only [hv, if_false, entry?_putEntry]; split <;> rfl

/-- The same for the cells whose content is specified. -/
theorem Memory.cell?_setCell (a b : Nat) (v : Int) :
    (m.setCell a v).cell? b = if b < m.tapeLive then (if a = b then some v else m.cell? b) else none := by
  simp only [Memory.cell?, Memory.tapeLive_setCell, Memory.rawCell_setCell]
  split
  · split <;> rfl
  · rfl

/-- START's clearing: zero below the count, the old content above it (R117). -/
@[simp] theorem Memory.rawCell_clearCells (n b : Nat) :
    (m.clearCells n).rawCell b = if n ≤ b then m.rawCell b else 0 := by
  simp only [Memory.rawCell, Memory.clearCells, entry?_filter_le]
  split <;> rfl

/-- A cell with a specified content is below the live count and reads as listed. -/
theorem Memory.cell?_eq_some {a : Nat} {v : Int} : m.cell? a = some v ↔ a < m.tapeLive ∧ m.rawCell a = v := by
  simp only [Memory.cell?]
  split <;> simp [*]

/-! ### The canonical form is kept -/

variable {m}

theorem Memory.wf_iff : m.wf = true ↔
    rising m.imem = true ∧ rising m.tape = true ∧ ∀ e ∈ m.tape, e.2 ≠ 0 := by
  simp [Memory.wf, and_assoc]

theorem Memory.wf_setWord (a : Nat) (w : Word) (h : m.wf = true) : (m.setWord a w).wf = true := by
  rw [Memory.wf_iff] at h ⊢
  exact ⟨rising_putEntry a w h.1, h.2⟩

theorem Memory.wf_setCell (a : Nat) (v : Int) (h : m.wf = true) : (m.setCell a v).wf = true := by
  rw [Memory.wf_iff] at h ⊢
  refine ⟨h.1, ?_⟩
  simp only [Memory.setCell]
  split
  · exact ⟨rising_filter _ h.2.1, fun e he => h.2.2 e (List.mem_filter.1 he).1⟩
  · refine ⟨rising_putEntry a v h.2.1, fun e he => ?_⟩
    rcases mem_putEntry he with rfl | he
    · assumption
    · exact h.2.2 e he

theorem Memory.wf_clearCells (n : Nat) (h : m.wf = true) : (m.clearCells n).wf = true := by
  rw [Memory.wf_iff] at h ⊢
  exact ⟨h.1, rising_filter _ h.2.1, fun e he => h.2.2 e (List.mem_filter.1 he).1⟩

theorem Memory.wf_powerOn : Memory.powerOn.wf = true := rfl

/-- Every entry of a written tape was there before or is the written one. -/
theorem Memory.mem_tape_setCell {a : Nat} {v : Int} {e : Nat × Int} (h : e ∈ (m.setCell a v).tape) :
    e = (a, v) ∨ e ∈ m.tape := by
  simp only [Memory.setCell] at h
  split at h
  · exact .inr (List.mem_filter.1 h).1
  · exact mem_putEntry h

end Sys2Proof.Machine
end

