-- ==== Sys2Proof/Laws/State.lean ====
section
/-! SUPPORT. What each update of the state does to each field, so that no proof unfolds a record update. -/

namespace Sys2Proof.Machine

variable (s : State)

/-! `setCell` -/

@[simp] theorem State.setCell_params (v : Int) : (s.setCell v).params = s.params := rfl
@[simp] theorem State.setCell_mem (v : Int) : (s.setCell v).mem = s.mem.setCell s.ptr.toNat v := rfl
@[simp] theorem State.setCell_runState (v : Int) : (s.setCell v).runState = s.runState := rfl
@[simp] theorem State.setCell_pc (v : Int) : (s.setCell v).pc = s.pc := rfl
@[simp] theorem State.setCell_ptr (v : Int) : (s.setCell v).ptr = s.ptr := rfl
@[simp] theorem State.setCell_rep (v : Int) : (s.setCell v).rep = s.rep := rfl
@[simp] theorem State.setCell_valueMin (v : Int) : (s.setCell v).valueMin = s.valueMin := rfl
@[simp] theorem State.setCell_valueMax (v : Int) : (s.setCell v).valueMax = s.valueMax := rfl
@[simp] theorem State.setCell_cellCount (v : Int) : (s.setCell v).cellCount = s.cellCount := rfl
@[simp] theorem State.setCell_progLen (v : Int) : (s.setCell v).progLen = s.progLen := rfl
@[simp] theorem State.setCell_policy (v : Int) : (s.setCell v).policy = s.policy := rfl
@[simp] theorem State.setCell_faultCode (v : Int) : (s.setCell v).faultCode = s.faultCode := rfl
@[simp] theorem State.setCell_faultPc (v : Int) : (s.setCell v).faultPc = s.faultPc := rfl
@[simp] theorem State.setCell_faultInfo (v : Int) : (s.setCell v).faultInfo = s.faultInfo := rfl
@[simp] theorem State.setCell_env (v : Int) : (s.setCell v).env = s.env := rfl

/-! `setPtr` -/

@[simp] theorem State.setPtr_params (r : Int) : (s.setPtr r).params = s.params := rfl
@[simp] theorem State.setPtr_mem (r : Int) : (s.setPtr r).mem = s.mem := rfl
@[simp] theorem State.setPtr_runState (r : Int) : (s.setPtr r).runState = s.runState := rfl
@[simp] theorem State.setPtr_pc (r : Int) : (s.setPtr r).pc = s.pc := rfl
@[simp] theorem State.setPtr_ptr (r : Int) : (s.setPtr r).ptr = BitVec.ofInt 32 r := rfl
@[simp] theorem State.setPtr_rep (r : Int) : (s.setPtr r).rep = s.rep := rfl
@[simp] theorem State.setPtr_valueMin (r : Int) : (s.setPtr r).valueMin = s.valueMin := rfl
@[simp] theorem State.setPtr_valueMax (r : Int) : (s.setPtr r).valueMax = s.valueMax := rfl
@[simp] theorem State.setPtr_cellCount (r : Int) : (s.setPtr r).cellCount = s.cellCount := rfl
@[simp] theorem State.setPtr_progLen (r : Int) : (s.setPtr r).progLen = s.progLen := rfl
@[simp] theorem State.setPtr_policy (r : Int) : (s.setPtr r).policy = s.policy := rfl
@[simp] theorem State.setPtr_faultCode (r : Int) : (s.setPtr r).faultCode = s.faultCode := rfl
@[simp] theorem State.setPtr_faultPc (r : Int) : (s.setPtr r).faultPc = s.faultPc := rfl
@[simp] theorem State.setPtr_faultInfo (r : Int) : (s.setPtr r).faultInfo = s.faultInfo := rfl
@[simp] theorem State.setPtr_env (r : Int) : (s.setPtr r).env = s.env := rfl

/-! `advance` -/

@[simp] theorem State.advance_params : (s.advance).params = s.params := rfl
@[simp] theorem State.advance_mem : (s.advance).mem = s.mem := rfl
@[simp] theorem State.advance_runState : (s.advance).runState = s.runState := rfl
@[simp] theorem State.advance_pc : (s.advance).pc = s.pc + 1#32 := rfl
@[simp] theorem State.advance_ptr : (s.advance).ptr = s.ptr := rfl
@[simp] theorem State.advance_rep : (s.advance).rep = s.rep := rfl
@[simp] theorem State.advance_valueMin : (s.advance).valueMin = s.valueMin := rfl
@[simp] theorem State.advance_valueMax : (s.advance).valueMax = s.valueMax := rfl
@[simp] theorem State.advance_cellCount : (s.advance).cellCount = s.cellCount := rfl
@[simp] theorem State.advance_progLen : (s.advance).progLen = s.progLen := rfl
@[simp] theorem State.advance_policy : (s.advance).policy = s.policy := rfl
@[simp] theorem State.advance_faultCode : (s.advance).faultCode = s.faultCode := rfl
@[simp] theorem State.advance_faultPc : (s.advance).faultPc = s.faultPc := rfl
@[simp] theorem State.advance_faultInfo : (s.advance).faultInfo = s.faultInfo := rfl
@[simp] theorem State.advance_env : (s.advance).env = s.env := rfl

/-! `jumpPast` -/

@[simp] theorem State.jumpPast_params (t : Opnd) : (s.jumpPast t).params = s.params := rfl
@[simp] theorem State.jumpPast_mem (t : Opnd) : (s.jumpPast t).mem = s.mem := rfl
@[simp] theorem State.jumpPast_runState (t : Opnd) : (s.jumpPast t).runState = s.runState := rfl
@[simp] theorem State.jumpPast_pc (t : Opnd) : (s.jumpPast t).pc = t.setWidth 32 + 1#32 := rfl
@[simp] theorem State.jumpPast_ptr (t : Opnd) : (s.jumpPast t).ptr = s.ptr := rfl
@[simp] theorem State.jumpPast_rep (t : Opnd) : (s.jumpPast t).rep = s.rep := rfl
@[simp] theorem State.jumpPast_valueMin (t : Opnd) : (s.jumpPast t).valueMin = s.valueMin := rfl
@[simp] theorem State.jumpPast_valueMax (t : Opnd) : (s.jumpPast t).valueMax = s.valueMax := rfl
@[simp] theorem State.jumpPast_cellCount (t : Opnd) : (s.jumpPast t).cellCount = s.cellCount := rfl
@[simp] theorem State.jumpPast_progLen (t : Opnd) : (s.jumpPast t).progLen = s.progLen := rfl
@[simp] theorem State.jumpPast_policy (t : Opnd) : (s.jumpPast t).policy = s.policy := rfl
@[simp] theorem State.jumpPast_faultCode (t : Opnd) : (s.jumpPast t).faultCode = s.faultCode := rfl
@[simp] theorem State.jumpPast_faultPc (t : Opnd) : (s.jumpPast t).faultPc = s.faultPc := rfl
@[simp] theorem State.jumpPast_faultInfo (t : Opnd) : (s.jumpPast t).faultInfo = s.faultInfo := rfl
@[simp] theorem State.jumpPast_env (t : Opnd) : (s.jumpPast t).env = s.env := rfl

/-! `raise` -/

@[simp] theorem State.raise_params (c : FaultCode) (i : Word) : (s.raise c i).params = s.params := rfl
@[simp] theorem State.raise_mem (c : FaultCode) (i : Word) : (s.raise c i).mem = s.mem := rfl
@[simp] theorem State.raise_runState (c : FaultCode) (i : Word) : (s.raise c i).runState = .fault := rfl
@[simp] theorem State.raise_pc (c : FaultCode) (i : Word) : (s.raise c i).pc = s.pc := rfl
@[simp] theorem State.raise_ptr (c : FaultCode) (i : Word) : (s.raise c i).ptr = s.ptr := rfl
@[simp] theorem State.raise_rep (c : FaultCode) (i : Word) : (s.raise c i).rep = s.rep := rfl
@[simp] theorem State.raise_valueMin (c : FaultCode) (i : Word) : (s.raise c i).valueMin = s.valueMin := rfl
@[simp] theorem State.raise_valueMax (c : FaultCode) (i : Word) : (s.raise c i).valueMax = s.valueMax := rfl
@[simp] theorem State.raise_cellCount (c : FaultCode) (i : Word) : (s.raise c i).cellCount = s.cellCount := rfl
@[simp] theorem State.raise_progLen (c : FaultCode) (i : Word) : (s.raise c i).progLen = s.progLen := rfl
@[simp] theorem State.raise_policy (c : FaultCode) (i : Word) : (s.raise c i).policy = s.policy := rfl
@[simp] theorem State.raise_faultCode (c : FaultCode) (i : Word) : (s.raise c i).faultCode = c.bits := rfl
@[simp] theorem State.raise_faultPc (c : FaultCode) (i : Word) : (s.raise c i).faultPc = s.pc := rfl
@[simp] theorem State.raise_faultInfo (c : FaultCode) (i : Word) : (s.raise c i).faultInfo = i := rfl
@[simp] theorem State.raise_env (c : FaultCode) (i : Word) : (s.raise c i).env = s.env := rfl

/-! `halt` -/

@[simp] theorem State.halt_params : (s.halt).params = s.params := rfl
@[simp] theorem State.halt_mem : (s.halt).mem = s.mem := rfl
@[simp] theorem State.halt_runState : (s.halt).runState = .done := rfl
@[simp] theorem State.halt_pc : (s.halt).pc = s.pc := rfl
@[simp] theorem State.halt_ptr : (s.halt).ptr = s.ptr := rfl
@[simp] theorem State.halt_rep : (s.halt).rep = s.rep := rfl
@[simp] theorem State.halt_valueMin : (s.halt).valueMin = s.valueMin := rfl
@[simp] theorem State.halt_valueMax : (s.halt).valueMax = s.valueMax := rfl
@[simp] theorem State.halt_cellCount : (s.halt).cellCount = s.cellCount := rfl
@[simp] theorem State.halt_progLen : (s.halt).progLen = s.progLen := rfl
@[simp] theorem State.halt_policy : (s.halt).policy = s.policy := rfl
@[simp] theorem State.halt_faultCode : (s.halt).faultCode = s.faultCode := rfl
@[simp] theorem State.halt_faultPc : (s.halt).faultPc = s.faultPc := rfl
@[simp] theorem State.halt_faultInfo : (s.halt).faultInfo = s.faultInfo := rfl
@[simp] theorem State.halt_env : (s.halt).env = s.env := rfl

/-! `emit` -/

@[simp] theorem State.emit_params (b : Byte) : (s.emit b).params = s.params := rfl
@[simp] theorem State.emit_mem (b : Byte) : (s.emit b).mem = s.mem := rfl
@[simp] theorem State.emit_runState (b : Byte) : (s.emit b).runState = s.runState := rfl
@[simp] theorem State.emit_pc (b : Byte) : (s.emit b).pc = s.pc := rfl
@[simp] theorem State.emit_ptr (b : Byte) : (s.emit b).ptr = s.ptr := rfl
@[simp] theorem State.emit_rep (b : Byte) : (s.emit b).rep = s.rep := rfl
@[simp] theorem State.emit_valueMin (b : Byte) : (s.emit b).valueMin = s.valueMin := rfl
@[simp] theorem State.emit_valueMax (b : Byte) : (s.emit b).valueMax = s.valueMax := rfl
@[simp] theorem State.emit_cellCount (b : Byte) : (s.emit b).cellCount = s.cellCount := rfl
@[simp] theorem State.emit_progLen (b : Byte) : (s.emit b).progLen = s.progLen := rfl
@[simp] theorem State.emit_policy (b : Byte) : (s.emit b).policy = s.policy := rfl
@[simp] theorem State.emit_faultCode (b : Byte) : (s.emit b).faultCode = s.faultCode := rfl
@[simp] theorem State.emit_faultPc (b : Byte) : (s.emit b).faultPc = s.faultPc := rfl
@[simp] theorem State.emit_faultInfo (b : Byte) : (s.emit b).faultInfo = s.faultInfo := rfl
@[simp] theorem State.emit_env (b : Byte) : (s.emit b).env = { s.env with output := s.env.output ++ [b] } := rfl

/-! `withTurns` -/

@[simp] theorem State.withTurns_params (l : List Turn) : (s.withTurns l).params = s.params := rfl
@[simp] theorem State.withTurns_mem (l : List Turn) : (s.withTurns l).mem = s.mem := rfl
@[simp] theorem State.withTurns_runState (l : List Turn) : (s.withTurns l).runState = s.runState := rfl
@[simp] theorem State.withTurns_pc (l : List Turn) : (s.withTurns l).pc = s.pc := rfl
@[simp] theorem State.withTurns_ptr (l : List Turn) : (s.withTurns l).ptr = s.ptr := rfl
@[simp] theorem State.withTurns_rep (l : List Turn) : (s.withTurns l).rep = s.rep := rfl
@[simp] theorem State.withTurns_valueMin (l : List Turn) : (s.withTurns l).valueMin = s.valueMin := rfl
@[simp] theorem State.withTurns_valueMax (l : List Turn) : (s.withTurns l).valueMax = s.valueMax := rfl
@[simp] theorem State.withTurns_cellCount (l : List Turn) : (s.withTurns l).cellCount = s.cellCount := rfl
@[simp] theorem State.withTurns_progLen (l : List Turn) : (s.withTurns l).progLen = s.progLen := rfl
@[simp] theorem State.withTurns_policy (l : List Turn) : (s.withTurns l).policy = s.policy := rfl
@[simp] theorem State.withTurns_faultCode (l : List Turn) : (s.withTurns l).faultCode = s.faultCode := rfl
@[simp] theorem State.withTurns_faultPc (l : List Turn) : (s.withTurns l).faultPc = s.faultPc := rfl
@[simp] theorem State.withTurns_faultInfo (l : List Turn) : (s.withTurns l).faultInfo = s.faultInfo := rfl
@[simp] theorem State.withTurns_env (l : List Turn) : (s.withTurns l).env = { s.env with turns := l } := rfl

/-! `clearRun` -/

@[simp] theorem State.clearRun_params : (s.clearRun).params = s.params := rfl
@[simp] theorem State.clearRun_mem : (s.clearRun).mem = s.mem := rfl
@[simp] theorem State.clearRun_runState : (s.clearRun).runState = s.runState := rfl
@[simp] theorem State.clearRun_pc : (s.clearRun).pc = 0#32 := rfl
@[simp] theorem State.clearRun_ptr : (s.clearRun).ptr = 0#32 := rfl
@[simp] theorem State.clearRun_rep : (s.clearRun).rep = 0#29 := rfl
@[simp] theorem State.clearRun_valueMin : (s.clearRun).valueMin = s.valueMin := rfl
@[simp] theorem State.clearRun_valueMax : (s.clearRun).valueMax = s.valueMax := rfl
@[simp] theorem State.clearRun_cellCount : (s.clearRun).cellCount = s.cellCount := rfl
@[simp] theorem State.clearRun_progLen : (s.clearRun).progLen = s.progLen := rfl
@[simp] theorem State.clearRun_policy : (s.clearRun).policy = s.policy := rfl
@[simp] theorem State.clearRun_faultCode : (s.clearRun).faultCode = 0#4 := rfl
@[simp] theorem State.clearRun_faultPc : (s.clearRun).faultPc = 0#32 := rfl
@[simp] theorem State.clearRun_faultInfo : (s.clearRun).faultInfo = 0#32 := rfl
@[simp] theorem State.clearRun_env : (s.clearRun).env =
    { s.env with
      outputMark := s.env.output.length, consumedMark := s.env.consumed, runCells := s.cellCount.toNat
      held := [(0#32, 0#32)] } := rfl

/-! `hardReset` -/

@[simp] theorem State.hardReset_params : (s.hardReset).params = s.params := rfl
@[simp] theorem State.hardReset_mem : (s.hardReset).mem = s.mem := rfl
@[simp] theorem State.hardReset_runState : (s.hardReset).runState = .idle := rfl
@[simp] theorem State.hardReset_pc : (s.hardReset).pc = 0#32 := rfl
@[simp] theorem State.hardReset_ptr : (s.hardReset).ptr = 0#32 := rfl
@[simp] theorem State.hardReset_rep : (s.hardReset).rep = 0#29 := rfl
@[simp] theorem State.hardReset_valueMin : (s.hardReset).valueMin = 0 := rfl
@[simp] theorem State.hardReset_valueMax : (s.hardReset).valueMax = 255 := rfl
@[simp] theorem State.hardReset_cellCount : (s.hardReset).cellCount = 30000#32 := rfl
@[simp] theorem State.hardReset_progLen : (s.hardReset).progLen = 0#32 := rfl
@[simp] theorem State.hardReset_policy : (s.hardReset).policy = 0x00000002#32 := rfl
@[simp] theorem State.hardReset_faultCode : (s.hardReset).faultCode = 0#4 := rfl
@[simp] theorem State.hardReset_faultPc : (s.hardReset).faultPc = 0#32 := rfl
@[simp] theorem State.hardReset_faultInfo : (s.hardReset).faultInfo = 0#32 := rfl
@[simp] theorem State.hardReset_env : (s.hardReset).env = s.env := rfl

/-! `offer` -/

@[simp] theorem State.offer_params (t : Token) : (s.offer t).params = s.params := rfl
@[simp] theorem State.offer_mem (t : Token) : (s.offer t).mem = s.mem := rfl
@[simp] theorem State.offer_runState (t : Token) : (s.offer t).runState = s.runState := rfl
@[simp] theorem State.offer_pc (t : Token) : (s.offer t).pc = s.pc := rfl
@[simp] theorem State.offer_ptr (t : Token) : (s.offer t).ptr = s.ptr := rfl
@[simp] theorem State.offer_rep (t : Token) : (s.offer t).rep = s.rep := rfl
@[simp] theorem State.offer_valueMin (t : Token) : (s.offer t).valueMin = s.valueMin := rfl
@[simp] theorem State.offer_valueMax (t : Token) : (s.offer t).valueMax = s.valueMax := rfl
@[simp] theorem State.offer_cellCount (t : Token) : (s.offer t).cellCount = s.cellCount := rfl
@[simp] theorem State.offer_progLen (t : Token) : (s.offer t).progLen = s.progLen := rfl
@[simp] theorem State.offer_policy (t : Token) : (s.offer t).policy = s.policy := rfl
@[simp] theorem State.offer_faultCode (t : Token) : (s.offer t).faultCode = s.faultCode := rfl
@[simp] theorem State.offer_faultPc (t : Token) : (s.offer t).faultPc = s.faultPc := rfl
@[simp] theorem State.offer_faultInfo (t : Token) : (s.offer t).faultInfo = s.faultInfo := rfl
@[simp] theorem State.offer_env (t : Token) : (s.offer t).env = { s.env with input := s.env.input ++ [t] } := rfl

/-! `supply` -/

@[simp] theorem State.supply_params (b : Source) : (s.supply b).params = s.params := rfl
@[simp] theorem State.supply_mem (b : Source) : (s.supply b).mem = s.mem := rfl
@[simp] theorem State.supply_runState (b : Source) : (s.supply b).runState = s.runState := rfl
@[simp] theorem State.supply_pc (b : Source) : (s.supply b).pc = s.pc := rfl
@[simp] theorem State.supply_ptr (b : Source) : (s.supply b).ptr = s.ptr := rfl
@[simp] theorem State.supply_rep (b : Source) : (s.supply b).rep = s.rep := rfl
@[simp] theorem State.supply_valueMin (b : Source) : (s.supply b).valueMin = s.valueMin := rfl
@[simp] theorem State.supply_valueMax (b : Source) : (s.supply b).valueMax = s.valueMax := rfl
@[simp] theorem State.supply_cellCount (b : Source) : (s.supply b).cellCount = s.cellCount := rfl
@[simp] theorem State.supply_progLen (b : Source) : (s.supply b).progLen = s.progLen := rfl
@[simp] theorem State.supply_policy (b : Source) : (s.supply b).policy = s.policy := rfl
@[simp] theorem State.supply_faultCode (b : Source) : (s.supply b).faultCode = s.faultCode := rfl
@[simp] theorem State.supply_faultPc (b : Source) : (s.supply b).faultPc = s.faultPc := rfl
@[simp] theorem State.supply_faultInfo (b : Source) : (s.supply b).faultInfo = s.faultInfo := rfl
@[simp] theorem State.supply_env (b : Source) : (s.supply b).env = { s.env with source := b } := rfl

/-! `accept` -/

@[simp] theorem State.accept_params (b : Bool) : (s.accept b).params = s.params := rfl
@[simp] theorem State.accept_mem (b : Bool) : (s.accept b).mem = s.mem := rfl
@[simp] theorem State.accept_runState (b : Bool) : (s.accept b).runState = s.runState := rfl
@[simp] theorem State.accept_pc (b : Bool) : (s.accept b).pc = s.pc := rfl
@[simp] theorem State.accept_ptr (b : Bool) : (s.accept b).ptr = s.ptr := rfl
@[simp] theorem State.accept_rep (b : Bool) : (s.accept b).rep = s.rep := rfl
@[simp] theorem State.accept_valueMin (b : Bool) : (s.accept b).valueMin = s.valueMin := rfl
@[simp] theorem State.accept_valueMax (b : Bool) : (s.accept b).valueMax = s.valueMax := rfl
@[simp] theorem State.accept_cellCount (b : Bool) : (s.accept b).cellCount = s.cellCount := rfl
@[simp] theorem State.accept_progLen (b : Bool) : (s.accept b).progLen = s.progLen := rfl
@[simp] theorem State.accept_policy (b : Bool) : (s.accept b).policy = s.policy := rfl
@[simp] theorem State.accept_faultCode (b : Bool) : (s.accept b).faultCode = s.faultCode := rfl
@[simp] theorem State.accept_faultPc (b : Bool) : (s.accept b).faultPc = s.faultPc := rfl
@[simp] theorem State.accept_faultInfo (b : Bool) : (s.accept b).faultInfo = s.faultInfo := rfl
@[simp] theorem State.accept_env (b : Bool) : (s.accept b).env = { s.env with ready := b } := rfl

/-! `noteBoundary` -/

@[simp] theorem State.noteBoundary_params : (s.noteBoundary).params = s.params := by
  unfold State.noteBoundary; split <;> rfl
@[simp] theorem State.noteBoundary_mem : (s.noteBoundary).mem = s.mem := by
  unfold State.noteBoundary; split <;> rfl
@[simp] theorem State.noteBoundary_runState : (s.noteBoundary).runState = s.runState := by
  unfold State.noteBoundary; split <;> rfl
@[simp] theorem State.noteBoundary_pc : (s.noteBoundary).pc = s.pc := by
  unfold State.noteBoundary; split <;> rfl
@[simp] theorem State.noteBoundary_ptr : (s.noteBoundary).ptr = s.ptr := by
  unfold State.noteBoundary; split <;> rfl
@[simp] theorem State.noteBoundary_rep : (s.noteBoundary).rep = s.rep := by
  unfold State.noteBoundary; split <;> rfl
@[simp] theorem State.noteBoundary_valueMin : (s.noteBoundary).valueMin = s.valueMin := by
  unfold State.noteBoundary; split <;> rfl
@[simp] theorem State.noteBoundary_valueMax : (s.noteBoundary).valueMax = s.valueMax := by
  unfold State.noteBoundary; split <;> rfl
@[simp] theorem State.noteBoundary_cellCount : (s.noteBoundary).cellCount = s.cellCount := by
  unfold State.noteBoundary; split <;> rfl
@[simp] theorem State.noteBoundary_progLen : (s.noteBoundary).progLen = s.progLen := by
  unfold State.noteBoundary; split <;> rfl
@[simp] theorem State.noteBoundary_policy : (s.noteBoundary).policy = s.policy := by
  unfold State.noteBoundary; split <;> rfl
@[simp] theorem State.noteBoundary_faultCode : (s.noteBoundary).faultCode = s.faultCode := by
  unfold State.noteBoundary; split <;> rfl
@[simp] theorem State.noteBoundary_faultPc : (s.noteBoundary).faultPc = s.faultPc := by
  unfold State.noteBoundary; split <;> rfl
@[simp] theorem State.noteBoundary_faultInfo : (s.noteBoundary).faultInfo = s.faultInfo := by
  unfold State.noteBoundary; split <;> rfl

/-! `beatEnd` -/

@[simp] theorem State.beatEnd_params (n : Opnd) : (s.beatEnd n).params = s.params := by
  unfold State.beatEnd; split <;> rfl
@[simp] theorem State.beatEnd_mem (n : Opnd) : (s.beatEnd n).mem = s.mem := by
  unfold State.beatEnd; split <;> rfl
@[simp] theorem State.beatEnd_runState (n : Opnd) : (s.beatEnd n).runState = s.runState := by
  unfold State.beatEnd; split <;> rfl
@[simp] theorem State.beatEnd_pc (n : Opnd) : (s.beatEnd n).pc = if s.rep.toNat + 1 = n.toNat then s.pc + 1#32 else s.pc := by
  unfold State.beatEnd; split <;> rfl
@[simp] theorem State.beatEnd_ptr (n : Opnd) : (s.beatEnd n).ptr = s.ptr := by
  unfold State.beatEnd; split <;> rfl
@[simp] theorem State.beatEnd_rep (n : Opnd) : (s.beatEnd n).rep = if s.rep.toNat + 1 = n.toNat then 0#29 else s.rep + 1#29 := by
  unfold State.beatEnd; split <;> rfl
@[simp] theorem State.beatEnd_valueMin (n : Opnd) : (s.beatEnd n).valueMin = s.valueMin := by
  unfold State.beatEnd; split <;> rfl
@[simp] theorem State.beatEnd_valueMax (n : Opnd) : (s.beatEnd n).valueMax = s.valueMax := by
  unfold State.beatEnd; split <;> rfl
@[simp] theorem State.beatEnd_cellCount (n : Opnd) : (s.beatEnd n).cellCount = s.cellCount := by
  unfold State.beatEnd; split <;> rfl
@[simp] theorem State.beatEnd_progLen (n : Opnd) : (s.beatEnd n).progLen = s.progLen := by
  unfold State.beatEnd; split <;> rfl
@[simp] theorem State.beatEnd_policy (n : Opnd) : (s.beatEnd n).policy = s.policy := by
  unfold State.beatEnd; split <;> rfl
@[simp] theorem State.beatEnd_faultCode (n : Opnd) : (s.beatEnd n).faultCode = s.faultCode := by
  unfold State.beatEnd; split <;> rfl
@[simp] theorem State.beatEnd_faultPc (n : Opnd) : (s.beatEnd n).faultPc = s.faultPc := by
  unfold State.beatEnd; split <;> rfl
@[simp] theorem State.beatEnd_faultInfo (n : Opnd) : (s.beatEnd n).faultInfo = s.faultInfo := by
  unfold State.beatEnd; split <;> rfl
@[simp] theorem State.beatEnd_env (n : Opnd) : (s.beatEnd n).env = s.env := by
  unfold State.beatEnd; split <;> rfl

/-! The turns of `noteBoundary` and `clearRun` -/

/-- Recording a boundary touches `held` alone. -/
theorem State.noteBoundary_env :
    s.noteBoundary.env = { s.env with held := s.noteBoundary.env.held } := by
  unfold State.noteBoundary; split <;> rfl

/-- After recording, the current boundary is recorded, and none is lost. -/
theorem State.mem_held_noteBoundary :
    (s.pc, s.ptr) ∈ s.noteBoundary.env.held ∧ ∀ p ∈ s.env.held, p ∈ s.noteBoundary.env.held := by
  unfold State.noteBoundary
  split
  · exact ⟨by assumption, fun _ h => h⟩
  · exact ⟨List.mem_cons_self, fun _ h => List.mem_cons_of_mem _ h⟩

/-- A boundary already recorded is not recorded again: a stall leaves the state unchanged. -/
theorem State.noteBoundary_eq_self (h : (s.pc, s.ptr) ∈ s.env.held) : s.noteBoundary = s := by
  simp [State.noteBoundary, h]

end Sys2Proof.Machine
end

