-- ==== Sys2Proof/Laws/Ops.lean ====
section
/-! SUPPORT. One lemma for each shared operation that says everything it can do, and the cases of `exec` and of `step`, which
proofs cite instead of unfolding them. -/

namespace Sys2Proof.Machine

/-! ### The policy function -/

theorem inRange_iff {lo hi cand : Int} : inRange lo hi cand = true ↔ lo ≤ cand ∧ cand ≤ hi := by
  simp [inRange]

/-- R81: the wrapped value lies in the range. -/
theorem wrapped_mem (cand : Int) {lo hi : Int} (h : lo ≤ hi) :
    lo ≤ wrapped cand lo hi ∧ wrapped cand lo hi ≤ hi := by
  unfold wrapped
  have h1 := Int.emod_nonneg (cand - lo) (show hi - lo + 1 ≠ 0 by omega)
  have h2 := Int.emod_lt_of_pos (cand - lo) (show 0 < hi - lo + 1 by omega)
  omega

/-- R81: the wrapped value is congruent to the candidate modulo the size of the range. -/
theorem wrapped_modEq (cand lo hi : Int) : hi - lo + 1 ∣ wrapped cand lo hi - cand := by
  have h := Int.mul_ediv_add_emod (cand - lo) (hi - lo + 1)
  refine ⟨-((cand - lo) / (hi - lo + 1)), ?_⟩
  unfold wrapped
  rw [mul_neg]
  omega

/-- What the policy function can answer (R78). -/
theorem applyPolicy_cases (cand lo hi : Int) (pol : Option Policy) (dir : Dir) :
    (lo ≤ cand ∧ cand ≤ hi ∧ applyPolicy cand lo hi pol dir = .ok cand) ∨
    (¬(lo ≤ cand ∧ cand ≤ hi) ∧
      ((pol = some .error ∧ applyPolicy cand lo hi pol dir = .err) ∨
       (pol = some .saturate ∧ applyPolicy cand lo hi pol dir = .ok (saturated lo hi dir)) ∨
       (pol = some .wrap ∧ applyPolicy cand lo hi pol dir = .ok (wrapped cand lo hi)) ∨
       (pol = none ∧ applyPolicy cand lo hi pol dir = .reserved))) := by
  by_cases h : inRange lo hi cand = true
  · exact .inl ⟨(inRange_iff.1 h).1, (inRange_iff.1 h).2, by simp [applyPolicy, h]⟩
  · refine .inr ⟨fun hr => h (inRange_iff.2 hr), ?_⟩
    cases pol with
    | none => exact .inr (.inr (.inr ⟨rfl, by simp [applyPolicy, h]⟩))
    | some p => cases p <;> simp [applyPolicy, h]

/-- A stored result lies in the range (R84, R89), under every policy. -/
theorem applyPolicy_ok_mem {cand lo hi r : Int} {pol : Option Policy} {dir : Dir} (h : lo ≤ hi)
    (hr : applyPolicy cand lo hi pol dir = .ok r) : lo ≤ r ∧ r ≤ hi := by
  rcases applyPolicy_cases cand lo hi pol dir with ⟨h1, h2, e⟩ | ⟨-, ⟨-, e⟩ | ⟨-, e⟩ | ⟨-, e⟩ | ⟨-, e⟩⟩ <;>
    rw [e] at hr <;> cases hr
  · exact ⟨h1, h2⟩
  · cases dir <;> simp [saturated, h]
  · exact wrapped_mem cand h

/-! ### Legality -/

theorem guardLegal_of_legal {i : Instr} {s : State} (h : s.legal i = true)
    (run : Host.Outcome State Fault Refusal) : guardLegal i s run = run := by
  simp [guardLegal, h]

theorem guardLegal_of_illegal {i : Instr} {s : State} (h : s.legal i = false)
    (run : Host.Outcome State Fault Refusal) :
    guardLegal i s run = .next (s.raise .illegalInstruction (encode i)) := by
  simp [guardLegal, h]

/-! ### The cases of `exec` -/

/-- Everything an instruction can do when it answers a next state `t`. -/
inductive ExecCase (s : State) : Instr → State → Prop where
  | illegal (i : Instr) (h : s.legal i = false) : ExecCase s i (s.raise .illegalInstruction (encode i))
  | valueStored (dir : Dir) (n : Opnd) (v r : Int) (hl : s.legal (valueInstr dir n) = true) (hv : s.cell? = some v)
      (hr : applyPolicy (candidate dir v n) s.valueMin s.valueMax s.valuePolicy dir = .ok r) :
      ExecCase s (valueInstr dir n) (s.setCell r).advance
  | valueFault (dir : Dir) (n : Opnd) (v : Int) (hl : s.legal (valueInstr dir n) = true) (hv : s.cell? = some v)
      (hr : applyPolicy (candidate dir v n) s.valueMin s.valueMax s.valuePolicy dir = .err) :
      ExecCase s (valueInstr dir n) (s.raise .valueRange (encode (valueInstr dir n)))
  | pointerMoved (dir : Dir) (n : Opnd) (r : Int) (hl : s.legal (pointerInstr dir n) = true)
      (hr : applyPolicy (candidate dir s.ptr.toNat n) 0 (s.cellCount.toNat - 1) s.pointerPolicy dir = .ok r) :
      ExecCase s (pointerInstr dir n) (s.setPtr r).advance
  | pointerFault (dir : Dir) (n : Opnd) (hl : s.legal (pointerInstr dir n) = true)
      (hr : applyPolicy (candidate dir s.ptr.toNat n) 0 (s.cellCount.toNat - 1) s.pointerPolicy dir = .err) :
      ExecCase s (pointerInstr dir n) (s.raise .pointerRange (encode (pointerInstr dir n)))
  | readStall (n : Opnd) (hl : s.legal (.read n) = true) (h : s.takeToken = none) : ExecCase s (.read n) s
  | readKept (n : Opnd) (tok : Token) (s' : State) (hl : s.legal (.read n) = true)
      (h : s.takeToken = some (tok, s')) (hv : s'.tokenValue tok = some none) : ExecCase s (.read n) (s'.beatEnd n)
  | readStored (n : Opnd) (tok : Token) (s' : State) (v : Int) (hl : s.legal (.read n) = true)
      (h : s.takeToken = some (tok, s')) (hv : s'.tokenValue tok = some (some v))
      (hp : s.ptr.toNat < s.mem.tapeLive) : ExecCase s (.read n) ((s'.setCell v).beatEnd n)
  | writeStall (n : Opnd) (hl : s.legal (.write n) = true) (h : s.env.ready = false) : ExecCase s (.write n) s
  | writeBeat (n : Opnd) (v : Int) (hl : s.legal (.write n) = true) (hv : s.cell? = some v)
      (h : s.env.ready = true) : ExecCase s (.write n) ((s.emit (low8 v)).beatEnd n)
  | openSkips (t : Opnd) (hl : s.legal (.loopOpen t) = true) (hv : s.cell? = some 0) :
      ExecCase s (.loopOpen t) (s.jumpPast t)
  | openEnters (t : Opnd) (v : Int) (hl : s.legal (.loopOpen t) = true) (hv : s.cell? = some v) (h : v ≠ 0) :
      ExecCase s (.loopOpen t) s.advance
  | closeRepeats (t : Opnd) (v : Int) (hl : s.legal (.loopClose t) = true) (hv : s.cell? = some v) (h : v ≠ 0) :
      ExecCase s (.loopClose t) (s.jumpPast t)
  | closeLeaves (t : Opnd) (hl : s.legal (.loopClose t) = true) (hv : s.cell? = some 0) :
      ExecCase s (.loopClose t) s.advance

/-- A repeated list with its first token moved to the end is the same sequence from its second token on. -/
theorem getElem?_rotated {α : Type} (t : α) (rest : List α) (k : Nat) :
    (rest ++ [t])[k % (rest.length + 1)]? = (t :: rest)[(k + 1) % (rest.length + 1)]? := by
  rw [← Nat.mod_add_mod k (rest.length + 1) 1]
  have hj : k % (rest.length + 1) < rest.length + 1 := Nat.mod_lt _ (Nat.succ_pos _)
  generalize k % (rest.length + 1) = j at hj ⊢
  rcases Nat.lt_or_ge j rest.length with h | h
  · rw [Nat.mod_eq_of_lt (Nat.succ_lt_succ h), List.getElem?_append_left h, List.getElem?_cons_succ]
  · obtain rfl : j = rest.length := by omega
    simp

/-- Taking a token of a source takes the first of its sequence and leaves the rest. -/
theorem Source.next?_eq_some {u u' : Source} {tok : Token} (h : u.next? = some (tok, u')) :
    u.token? 0 = some tok ∧ ∀ k, u'.token? k = u.token? (k + 1) := by
  match u, h with
  | .repeating (t :: rest), h =>
    cases h
    refine ⟨by simp [Source.token?], fun k => ?_⟩
    simpa [Source.token?] using getElem?_rotated tok rest k
  | .endless stream next, h =>
    cases h
    exact ⟨rfl, fun k => by simp only [Source.token?, Nat.add_assoc, Nat.add_comm 1 k]⟩

theorem Source.next?_eq_none {u : Source} : u.next? = none ↔ u.token? 0 = none := by
  match u with
  | .repeating [] => simp [Source.next?, Source.token?]
  | .repeating (_ :: _) => simp [Source.next?, Source.token?]
  | .endless _ _ => simp [Source.next?, Source.token?]

/-- Taking a token takes the first of the input's sequence, leaves the rest of it, and touches the input alone; the tokens
queued go first (R40, R119 P5). -/
theorem Env.next?_eq_some {e e' : Env} {tok : Token} (h : e.next? = some (tok, e')) :
    e.token? 0 = some tok ∧ (∀ k, e'.token? k = e.token? (k + 1)) ∧
    e' = { e with input := e'.input, source := e'.source } ∧
    (∀ t rest, e.input = t :: rest → tok = t ∧ e'.input = rest ∧ e'.source = e.source) := by
  unfold Env.next? at h
  split at h
  · rename_i he
    obtain ⟨⟨t, u⟩, hu, h⟩ := Option.map_eq_some_iff.1 h
    cases h
    obtain ⟨h0, hs⟩ := Source.next?_eq_some hu
    simp [Env.token?, he, h0, hs]
  · rename_i t rest he
    cases h
    refine ⟨by simp [Env.token?, he], fun k => ?_, rfl, fun t' r hr => ?_⟩
    · simp [Env.token?, he]
    · rw [he] at hr; cases hr; exact ⟨rfl, rfl, rfl⟩

/-- The input's sequence is read off the queue and the source alone. -/
theorem Env.token?_congr {e e' : Env} (hi : e'.input = e.input) (hs : e'.source = e.source) : e'.token? = e.token? := by
  funext k
  simp only [Env.token?, hi, hs]

theorem Env.next?_eq_none {e : Env} : e.next? = none ↔ e.token? 0 = none := by
  unfold Env.next?
  split
  · simp [Env.token?, *, Source.next?_eq_none]
  · simp [Env.token?, *]

/-- What taking a token changes: the input and the count of tokens alone (R40). -/
theorem takeToken_eq_some {s s' : State} {tok : Token} (h : s.takeToken = some (tok, s')) :
    s.env.token? 0 = some tok ∧ (∀ k, s'.env.token? k = s.env.token? (k + 1)) ∧
    (∀ t rest, s.env.input = t :: rest → tok = t ∧ s'.env.input = rest ∧ s'.env.source = s.env.source) ∧
    s' = { s with env := { s.env with
      input := s'.env.input, source := s'.env.source, consumed := s.env.consumed + 1 } } := by
  obtain ⟨⟨t, e⟩, he, h⟩ := Option.map_eq_some_iff.1 h
  cases h
  obtain ⟨h0, hs, hf, hq⟩ := Env.next?_eq_some he
  exact ⟨h0, hs, hq, by rw [hf]⟩

theorem takeToken_eq_none {s : State} : s.takeToken = none ↔ s.env.token? 0 = none := by
  simp [State.takeToken, Env.next?_eq_none]

/-- With a token on offer a beat takes it. -/
theorem takeToken_isSome {s : State} {tok : Token} (h : s.env.token? 0 = some tok) :
    ∃ s', s.takeToken = some (tok, s') := by
  cases ht : s.takeToken with
  | none => rw [takeToken_eq_none.1 ht] at h; cases h
  | some p => exact ⟨p.2, by rw [← Option.some_inj.1 ((takeToken_eq_some (tok := p.1) (s' := p.2) ht).1.symm.trans h)]⟩

theorem guardLegal_next {i : Instr} {s t : State} {run : Host.Outcome State Fault Refusal}
    (h : guardLegal i s run = .next t) :
    (s.legal i = false ∧ t = s.raise .illegalInstruction (encode i)) ∨ (s.legal i = true ∧ run = .next t) := by
  cases hl : s.legal i with
  | false => rw [guardLegal_of_illegal hl] at h; cases h; exact .inl ⟨rfl, rfl⟩
  | true => rw [guardLegal_of_legal hl] at h; exact .inr ⟨rfl, h⟩

theorem valueStep_next {i : Instr} {dir : Dir} {n : Opnd} {s t : State} (h : valueStep i dir n s = .next t) :
    ∃ v, s.cell? = some v ∧
      ((∃ r, applyPolicy (candidate dir v n) s.valueMin s.valueMax s.valuePolicy dir = .ok r ∧
          t = (s.setCell r).advance) ∨
       (applyPolicy (candidate dir v n) s.valueMin s.valueMax s.valuePolicy dir = .err ∧
          t = s.raise .valueRange (encode i))) := by
  unfold valueStep at h
  split at h
  · cases h
  · refine ⟨_, ‹_›, ?_⟩
    split at h <;> cases h
    · exact .inl ⟨_, ‹_›, rfl⟩
    · exact .inr ⟨‹_›, rfl⟩

theorem pointerStep_next {i : Instr} {dir : Dir} {n : Opnd} {s t : State} (h : pointerStep i dir n s = .next t) :
    (∃ r, applyPolicy (candidate dir s.ptr.toNat n) 0 (s.cellCount.toNat - 1) s.pointerPolicy dir = .ok r ∧
        t = (s.setPtr r).advance) ∨
    (applyPolicy (candidate dir s.ptr.toNat n) 0 (s.cellCount.toNat - 1) s.pointerPolicy dir = .err ∧
        t = s.raise .pointerRange (encode i)) := by
  unfold pointerStep at h
  split at h <;> cases h
  · exact .inl ⟨_, ‹_›, rfl⟩
  · exact .inr ⟨‹_›, rfl⟩

theorem readBeat_next {n : Opnd} {s t : State} (h : readBeat n s = .next t) :
    (s.takeToken = none ∧ t = s) ∨
    ∃ tok s', s.takeToken = some (tok, s') ∧
      ((s'.tokenValue tok = some none ∧ t = s'.beatEnd n) ∨
       ∃ v, s'.tokenValue tok = some (some v) ∧ s.ptr.toNat < s.mem.tapeLive ∧ t = (s'.setCell v).beatEnd n) := by
  unfold readBeat at h
  split at h
  · cases h; exact .inl ⟨‹_›, rfl⟩
  · rename_i tok s' hs
    refine .inr ⟨tok, s', hs, ?_⟩
    split at h
    · cases h
    · rename_i v hv
      have he := (takeToken_eq_some hs).2.2.2
      cases v with
      | none => cases h; exact .inl ⟨hv, rfl⟩
      | some v =>
        simp only [storeBeat] at h
        split at h <;> cases h
        rename_i hp
        rw [he] at hp
        exact .inr ⟨v, hv, hp, rfl⟩

theorem writeBeat_next {n : Opnd} {s t : State} (h : writeBeat n s = .next t) :
    (s.env.ready = false ∧ t = s) ∨
    ∃ v, s.cell? = some v ∧ s.env.ready = true ∧ t = (s.emit (low8 v)).beatEnd n := by
  unfold writeBeat at h
  split at h
  · cases h
  · split at h <;> cases h
    · exact .inr ⟨_, ‹_›, ‹_›, rfl⟩
    · exact .inl ⟨(Bool.not_eq_true _).mp ‹_›, rfl⟩

theorem bracketStep_next {taken : Int → Bool} {t : Opnd} {s u : State} (h : bracketStep taken t s = .next u) :
    ∃ v, s.cell? = some v ∧ ((taken v = true ∧ u = s.jumpPast t) ∨ (taken v = false ∧ u = s.advance)) := by
  unfold bracketStep at h
  split at h
  · cases h
  · refine ⟨_, ‹_›, ?_⟩
    split at h <;> cases h
    · exact .inl ⟨‹_›, rfl⟩
    · exact .inr ⟨(Bool.not_eq_true _).mp ‹_›, rfl⟩

theorem cellIsZero_iff {v : Int} : cellIsZero v = true ↔ v = 0 := by simp [cellIsZero]

/-- The inversion of `exec`: a next state comes from one of the cases. -/
theorem exec_cases {i : Instr} {s t : State} (h : exec i s = .next t) : ExecCase s i t := by
  cases i with
  | incValue n =>
    obtain ⟨hl, rfl⟩ | ⟨hl, h⟩ := guardLegal_next h
    · exact .illegal _ hl
    · obtain ⟨v, hv, ⟨r, hr, rfl⟩ | ⟨hr, rfl⟩⟩ := valueStep_next h
      · exact .valueStored .up n v r hl hv hr
      · exact .valueFault .up n v hl hv hr
  | decValue n =>
    obtain ⟨hl, rfl⟩ | ⟨hl, h⟩ := guardLegal_next h
    · exact .illegal _ hl
    · obtain ⟨v, hv, ⟨r, hr, rfl⟩ | ⟨hr, rfl⟩⟩ := valueStep_next h
      · exact .valueStored .down n v r hl hv hr
      · exact .valueFault .down n v hl hv hr
  | incPointer n =>
    obtain ⟨hl, rfl⟩ | ⟨hl, h⟩ := guardLegal_next h
    · exact .illegal _ hl
    · obtain ⟨r, hr, rfl⟩ | ⟨hr, rfl⟩ := pointerStep_next h
      · exact .pointerMoved .up n r hl hr
      · exact .pointerFault .up n hl hr
  | decPointer n =>
    obtain ⟨hl, rfl⟩ | ⟨hl, h⟩ := guardLegal_next h
    · exact .illegal _ hl
    · obtain ⟨r, hr, rfl⟩ | ⟨hr, rfl⟩ := pointerStep_next h
      · exact .pointerMoved .down n r hl hr
      · exact .pointerFault .down n hl hr
  | read n =>
    obtain ⟨hl, rfl⟩ | ⟨hl, h⟩ := guardLegal_next h
    · exact .illegal _ hl
    · obtain ⟨he, rfl⟩ | ⟨tok, s', hs, ⟨hv, rfl⟩ | ⟨v, hv, hp, rfl⟩⟩ := readBeat_next h
      · exact .readStall n hl he
      · exact .readKept n tok s' hl hs hv
      · exact .readStored n tok s' v hl hs hv hp
  | write n =>
    obtain ⟨hl, rfl⟩ | ⟨hl, h⟩ := guardLegal_next h
    · exact .illegal _ hl
    · obtain ⟨he, rfl⟩ | ⟨v, hv, hr, rfl⟩ := writeBeat_next h
      · exact .writeStall n hl he
      · exact .writeBeat n v hl hv hr
  | loopOpen t =>
    obtain ⟨hl, rfl⟩ | ⟨hl, h⟩ := guardLegal_next h
    · exact .illegal _ hl
    · obtain ⟨v, hv, ⟨hz, rfl⟩ | ⟨hz, rfl⟩⟩ := bracketStep_next h
      · obtain rfl := cellIsZero_iff.1 hz
        exact .openSkips t hl hv
      · exact .openEnters t v hl hv (by simpa [cellIsZero] using hz)
  | loopClose t =>
    obtain ⟨hl, rfl⟩ | ⟨hl, h⟩ := guardLegal_next h
    · exact .illegal _ hl
    · obtain ⟨v, hv, ⟨hz, rfl⟩ | ⟨hz, rfl⟩⟩ := bracketStep_next h
      · exact .closeRepeats t v hl hv (by simpa [cellIsZero] using hz)
      · obtain rfl : v = 0 := by simpa [cellIsZero] using hz
        exact .closeLeaves t hl hv

/-! ### START -/

/-- What a START can do (R117). -/
theorem start_cases (s : State) :
    (s.runState = .running ∧ s.start = s) ∨
    (s.runState ≠ .running ∧ s.configCause = 0 ∧
      s.start = { s.clearRun with mem := s.mem.clearCells s.cellCount.toNat, runState := .running }) ∨
    (s.runState ≠ .running ∧ s.configCause ≠ 0 ∧
      s.start = { s.clearRun with runState := .fault, faultCode := FaultCode.configuration.bits,
                                  faultInfo := BitVec.ofNat 32 s.configCause }) := by
  by_cases h : s.runState = .running
  · exact .inl ⟨h, by simp [State.start, h]⟩
  · by_cases hc : s.configCause = 0
    · exact .inr (.inl ⟨h, hc, by simp [State.start, h, hc]⟩)
    · exact .inr (.inr ⟨h, hc, by simp [State.start, h, hc]⟩)

/-- R103: the checks a configuration passes when no cause is found. -/
theorem configCause_eq_zero {s : State} (h : s.configCause = 0) :
    s.valuePolicy ≠ none ∧ s.pointerPolicy ≠ none ∧ s.eofPolicy ≠ none ∧ s.valueMin ≤ s.valueMax ∧
    0 < s.cellCount.toNat ∧ s.cellCount.toNat ≤ s.params.tapeDepth ∧ s.progLen.toNat ≤ s.params.imemDepth := by
  unfold State.configCause at h
  split at h; · cases h
  split at h; · cases h
  split at h; · cases h
  split at h; · cases h
  split at h; · cases h
  split at h; · cases h
  rename_i h1 h2 h3 h4 h5 h6
  refine ⟨h1, h2, h3, by omega, ?_, by omega, by omega⟩
  rcases Nat.eq_zero_or_pos s.cellCount.toNat with h0 | h0
  · exact absurd (.inl (BitVec.eq_of_toNat_eq (by simpa using h0))) h5
  · exact h0

/-- START's checks read the parameters and the configuration registers alone (R103). -/
theorem configCause_congr {s t : State} (h : s.SameConfig t) : t.configCause = s.configCause := by
  obtain ⟨h1, h2, h3, h4, h5, h6⟩ := h
  cases s; cases t
  simp only at h1 h2 h3 h4 h5 h6
  subst h1 h2 h3 h4 h5 h6
  rfl

/-! ### The cases of a step -/

/-- What the executor's turn can do. -/
theorem executorTurn_next {s t : State} (h : executorTurn s = .next t) :
    (s.runState ≠ .running ∧ t = s) ∨
    (s.runState = .running ∧ s.progLen.toNat ≤ s.pc.toNat ∧ t = s.halt) ∨
    (s.runState = .running ∧ s.pc.toNat < s.progLen.toNat ∧
      ∃ w u, s.fetch? = some w ∧ exec (decode w) s = .next u ∧ t = u.noteBoundary) := by
  cases hr : s.runState <;> simp only [executorTurn, hr] at h
  case running =>
    unfold runStep at h
    split at h
    · cases h; exact .inr (.inl ⟨rfl, ‹_›, rfl⟩)
    · split at h
      · cases h
      · rename_i w hw
        cases he : exec (decode w) s <;> rw [he] at h <;> simp only [onNext] at h <;> cases h
        exact .inr (.inr ⟨rfl, by omega, w, _, hw, he, rfl⟩)
  all_goals cases h; exact .inl ⟨by simp, rfl⟩

/-- What a step can do: the executor's turn or one action of the host. -/
theorem step_next {s t : State} (h : step s = .next t) :
    (∃ rest, ((s.env.turns = [] ∧ rest = []) ∨ s.env.turns = .executor :: rest) ∧ executorTurn (s.withTurns rest) = .next t) ∨
    (∃ a rest, s.env.turns = .host a :: rest ∧ t = hostAct a (s.withTurns rest)) := by
  unfold step takeTurn at h
  split at h
  · refine .inl ⟨[], .inl ⟨‹_›, rfl⟩, ?_⟩
    rename_i he
    have : s.withTurns [] = s := by simp only [State.withTurns, ← he]
    rw [this]; exact h
  · exact .inl ⟨_, .inr ‹_›, h⟩
  · cases h; exact .inr ⟨_, _, ‹_›, rfl⟩

end Sys2Proof.Machine
end

