-- ==== Sys2Proof/Laws/Operands.lean ====
section
/-! SUPPORT. One lemma for each computation of `Machine/Operands.lean` that says what number it gives, so that proofs do not
unfold it. -/

namespace Sys2Proof.Machine

/-! ### The fields of `POLICY` -/

/-- R29: the value policy by the number in bits [1:0]. -/
theorem State.valuePolicy_eq (s : State) : s.valuePolicy =
    (match s.policy.toNat % 4 with
      | 0 => some .error | 1 => some .saturate | 2 => some .wrap | _ => none) := by
  unfold State.valuePolicy Policy.ofBits
  have h : (s.policy.extractLsb' 0 2).toNat = s.policy.toNat % 4 := by simp [BitVec.extractLsb'_toNat]
  rw [h] <;> rfl

/-- R29: the pointer policy by the number in bits [3:2]. -/
theorem State.pointerPolicy_eq (s : State) : s.pointerPolicy =
    (match s.policy.toNat / 4 % 4 with
      | 0 => some .error | 1 => some .saturate | 2 => some .wrap | _ => none) := by
  unfold State.pointerPolicy Policy.ofBits
  have h : (s.policy.extractLsb' 2 2).toNat = s.policy.toNat / 4 % 4 := by
    simp [BitVec.extractLsb'_toNat, Nat.shiftRight_eq_div_pow]
  rw [h] <;> rfl

/-- R29: the EOF policy by the number in bits [6:4]. -/
theorem State.eofPolicy_eq (s : State) : s.eofPolicy =
    (match s.policy.toNat / 16 % 8 with
      | 0 => some .zero | 1 => some .minValue | 2 => some .maxValue | 3 => some .negativeOne
      | 4 => some .noChange | _ => none) := by
  unfold State.eofPolicy EofPolicy.ofBits
  have h : (s.policy.extractLsb' 4 3).toNat = s.policy.toNat / 16 % 8 := by
    simp [BitVec.extractLsb'_toNat, Nat.shiftRight_eq_div_pow]
  rw [h] <;> rfl

theorem State.valuePolicy_eq_none (s : State) : s.valuePolicy = none ↔ s.policy.toNat % 4 = 3 := by
  rw [State.valuePolicy_eq]; split <;> simp_all; omega

theorem State.pointerPolicy_eq_none (s : State) : s.pointerPolicy = none ↔ s.policy.toNat / 4 % 4 = 3 := by
  rw [State.pointerPolicy_eq]; split <;> simp_all; omega

theorem State.eofPolicy_eq_none (s : State) : s.eofPolicy = none ↔ 5 ≤ s.policy.toNat / 16 % 8 := by
  rw [State.eofPolicy_eq]; split <;> simp_all; omega

/-! ### The policy function, case by case -/

theorem applyPolicy_in {cand lo hi : Int} {pol : Option Policy} {dir : Dir} (h : lo ≤ cand ∧ cand ≤ hi) :
    applyPolicy cand lo hi pol dir = .ok cand := by
  simp [applyPolicy, inRange, h]

theorem inRange_eq_false {cand lo hi : Int} (h : ¬(lo ≤ cand ∧ cand ≤ hi)) : inRange lo hi cand = false := by
  simpa [inRange] using h

theorem applyPolicy_error {cand lo hi : Int} {dir : Dir} (h : ¬(lo ≤ cand ∧ cand ≤ hi)) :
    applyPolicy cand lo hi (some .error) dir = .err := by
  simp [applyPolicy, inRange_eq_false h]

theorem applyPolicy_saturate {cand lo hi : Int} {dir : Dir} (h : ¬(lo ≤ cand ∧ cand ≤ hi)) :
    applyPolicy cand lo hi (some .saturate) dir = .ok (saturated lo hi dir) := by
  simp [applyPolicy, inRange_eq_false h]

theorem applyPolicy_wrap {cand lo hi : Int} {dir : Dir} (h : ¬(lo ≤ cand ∧ cand ≤ hi)) :
    applyPolicy cand lo hi (some .wrap) dir = .ok (wrapped cand lo hi) := by
  simp [applyPolicy, inRange_eq_false h]

/-- Wrapping a value of the range leaves it. -/
theorem wrapped_self {cand lo hi : Int} (h : lo ≤ cand ∧ cand ≤ hi) : wrapped cand lo hi = cand := by
  unfold wrapped; rw [Int.emod_eq_of_lt] <;> omega

/-- Wrapping before a move does not change what wrapping after it gives. -/
theorem wrapped_add (cand lo hi k : Int) : wrapped (wrapped cand lo hi + k) lo hi = wrapped (cand + k) lo hi := by
  unfold wrapped
  congr 1
  rw [show (cand - lo) % (hi - lo + 1) + lo + k - lo = (cand - lo) % (hi - lo + 1) + k by ring, Int.emod_add_emod]
  congr 1; ring

/-! ### Numbers of the ports -/

/-- R9: the low byte is the non-negative remainder by 256. -/
theorem low8_toNat (v : Int) : ((low8 v).toNat : Int) = v % 256 := by
  simp [low8, BitVec.toNat_ofInt]; omega

/-- The signed number in the low `w` bits is congruent to the written word. -/
theorem signedLow_dvd (w word : Nat) : (2 ^ w : Int) ∣ signedLow w word - word := by
  unfold signedLow
  have h := Int.dvd_bmod_sub_self (x := (word : Int)) (m := 2 ^ w)
  exact_mod_cast h

/-- The signed number in the low `w` bits fits a signed register of `w` bits. -/
theorem signedLow_range {w : Nat} (hw : 1 ≤ w) (word : Nat) :
    -(2 ^ (w - 1)) ≤ signedLow w word ∧ signedLow w word < 2 ^ (w - 1) := by
  have h2 : 2 ^ w = 2 * 2 ^ (w - 1) := by rw [← Nat.pow_succ']; congr 1; omega
  have a := Int.le_bmod (x := (word : Int)) (m := 2 ^ w) (by positivity)
  have b := Int.bmod_lt (x := (word : Int)) (m := 2 ^ w) (by positivity)
  unfold signedLow
  rw [h2] at a b ⊢
  push_cast at a b ⊢
  omega

/-- The port word of a signed number of `w` bits on a port of at least as many. -/
theorem signExtended_eq {w port : Nat} {v : Int} (h1 : -(2 ^ (w - 1)) ≤ v) (h2 : v < 2 ^ (w - 1)) (hw : w ≤ port)
    (h0 : 1 ≤ w) : signExtended port v < 2 ^ port ∧
      (signExtended port v : Int) = if 0 ≤ v then v else v + 2 ^ port := by
  have a : (2 : Int) ^ (w - 1) ≤ 2 ^ (port - 1) := by exact_mod_cast Nat.pow_le_pow_right (by norm_num) (by omega)
  have b : (2 : Int) ^ port = 2 * 2 ^ (port - 1) := by rw [← pow_succ']; congr 1; omega
  have hp : (0 : Int) < 2 ^ port := by positivity
  have c := Int.emod_nonneg v (ne_of_gt hp)
  have d := Int.emod_lt_of_pos v hp
  unfold signExtended
  refine ⟨by zify; rw [Int.toNat_of_nonneg c]; exact d, ?_⟩
  rw [Int.toNat_of_nonneg c]
  split
  · exact Int.emod_eq_of_lt ‹_› (by omega)
  · rw [← Int.add_emod_right, Int.emod_eq_of_lt] <;> omega

/-- A pointer stored in range reads back as the number stored. -/
theorem State.setPtr_toNat {s : State} {r : Int} {k : Nat} (h0 : 0 ≤ r) (h1 : r ≤ k - 1) (hk : k < 2 ^ 32) :
    ((s.setPtr r).ptr.toNat : Int) = r := by
  simp only [State.setPtr_ptr, BitVec.toNat_ofInt]; push_cast; omega

/-- The target of a taken bracket does not wrap. -/
theorem jumpPast_toNat (t : Opnd) : (t.setWidth 32 + 1#32 : BitVec 32).toNat = t.toNat + 1 := by
  have h := t.isLt
  simp [BitVec.toNat_add]; omega

/-- A cell with a specified content reads back as written, after the sequential advance too. -/
theorem State.cell?_setCell {s : State} {v r : Int} (h : s.cell? = some v) :
    (s.setCell r).advance.cell? = some r := by
  obtain ⟨h1, -⟩ := (Memory.cell?_eq_some _).1 h
  simp [State.cell?, Memory.cell?_setCell, h1]

end Sys2Proof.Machine
end

