-- ==== Sys2Proof/Laws/Exec.lean ====
section
/-! SUPPORT. What `exec` is for each instruction that is legal at its `PC`, and the frames of the states its meaning builds:
the lemmas a proof about one instruction starts from. -/

namespace Sys2Proof.Machine

/-! ### Legality -/

/-- The claim's own wording of R61 and the machine's check are the same. -/
theorem illegalHere_iff (s : State) (i : Instr) : IllegalHere s i ↔ s.legal i = false := by
  unfold IllegalHere
  cases i <;> simp [State.legal, Instr.legalAt, Instr.partner?, Instr.operand]

theorem legal_valueInstr {s : State} {dir : Dir} {n : Opnd} (h : n ≠ 0#29) : s.legal (valueInstr dir n) = true := by
  cases dir <;> simp [State.legal, Instr.legalAt, valueInstr, h]

theorem legal_pointerInstr {s : State} {dir : Dir} {n : Opnd} (h : n ≠ 0#29) :
    s.legal (pointerInstr dir n) = true := by
  cases dir <;> simp [State.legal, Instr.legalAt, pointerInstr, h]

/-! ### A legal instruction runs its meaning -/

theorem exec_value {s : State} {dir : Dir} {n : Opnd} (h : n ≠ 0#29) :
    exec (valueInstr dir n) s = valueStep (valueInstr dir n) dir n s := by
  cases dir
  · exact guardLegal_of_legal (legal_valueInstr (dir := .up) h) _
  · exact guardLegal_of_legal (legal_valueInstr (dir := .down) h) _

theorem exec_pointer {s : State} {dir : Dir} {n : Opnd} (h : n ≠ 0#29) :
    exec (pointerInstr dir n) s = pointerStep (pointerInstr dir n) dir n s := by
  cases dir
  · exact guardLegal_of_legal (legal_pointerInstr (dir := .up) h) _
  · exact guardLegal_of_legal (legal_pointerInstr (dir := .down) h) _

theorem exec_read {s : State} {n : Opnd} (h : n ≠ 0#29) : exec (.read n) s = readBeat n s :=
  guardLegal_of_legal (by simp [State.legal, Instr.legalAt, h]) _

theorem exec_write {s : State} {n : Opnd} (h : n ≠ 0#29) : exec (.write n) s = writeBeat n s :=
  guardLegal_of_legal (by simp [State.legal, Instr.legalAt, h]) _

theorem exec_loopOpen {s : State} {t : Opnd} (h1 : s.pc.toNat < t.toNat) (h2 : t.toNat < s.progLen.toNat) :
    exec (.loopOpen t) s = bracketStep cellIsZero t s :=
  guardLegal_of_legal (by simp [State.legal, Instr.legalAt, h1, h2]) _

theorem exec_loopClose {s : State} {t : Opnd} (h : t.toNat < s.pc.toNat) :
    exec (.loopClose t) s = bracketStep (fun v => !cellIsZero v) t s :=
  guardLegal_of_legal (by simp [State.legal, Instr.legalAt, h]) _

/-! ### Frames -/

theorem valueFrame (s : State) (r : Int) : ValueFrame s (s.setCell r).advance :=
  ⟨rfl, rfl, rfl, ⟨rfl, rfl, rfl, rfl, rfl, rfl⟩, ⟨rfl, rfl, rfl, rfl⟩,
    ⟨fun _ => rfl, rfl, fun b hb => by simp [Ne.symm hb]⟩, rfl⟩

theorem pointerFrame (s : State) (r : Int) : PointerFrame s (s.setPtr r).advance :=
  ⟨rfl, rfl, ⟨rfl, rfl, rfl, rfl, rfl, rfl⟩, ⟨rfl, rfl, rfl, rfl⟩, ⟨fun _ => rfl, rfl, fun _ => rfl⟩, rfl⟩

/-- The end of a beat, from a state `u` that differs from `s` in the memories and the streams alone. -/
theorem beatFrame {s u : State} {n : Opnd} (hpc : u.pc = s.pc) (hrep : u.rep = s.rep) (hptr : u.ptr = s.ptr)
    (hcfg : s.SameConfig u) (hrec : s.SameRecord u) : BeatFrame n s (u.beatEnd n) where
  lastBeat h := by simp [hpc, hrep, h]
  innerBeat h := by simp [hpc, hrep, h]
  ptr := by simpa using hptr
  config := ⟨by simp [hcfg.1], by simp [hcfg.2], by simp [hcfg.3], by simp [hcfg.4], by simp [hcfg.5], by simp [hcfg.6]⟩
  record := ⟨by simp [hrec.1], by simp [hrec.2], by simp [hrec.3], by simp [hrec.4]⟩

end Sys2Proof.Machine
end

