-- ==== Sys2Proof/Laws/PerInstr.lean ====
section
/-! SUPPORT. The per-instruction family `EncodingFields`: what the word of each instruction is, read as a number, from the
match column of the opcode table and R56. -/

namespace Sys2Proof.Laws

/-- The word of an instruction is its opcode times 2^29 plus its operand (30_encoding.md R56), and it is of the
three-bit opcode the table gives the instruction (R57). -/
def EncodingFields.Statement (i : Instr) : Prop :=
  (encode i).toNat = i.opcode.toNat * 2 ^ 29 + i.operand.toNat ∧ opcField (encode i) = i.opcode ∧
    opndField (encode i) = i.operand

/-- A concatenated opcode and operand, read as a number. -/
theorem word_toNat (o : BitVec 3) (n : Opnd) : (o ++ n : BitVec (3 + 29)).toNat = o.toNat * 2 ^ 29 + n.toNat := by
  rw [BitVec.toNat_append, Nat.shiftLeft_eq, Nat.mul_comm, ← Nat.two_pow_add_eq_or_of_lt n.isLt, Nat.mul_comm]

/-- The two fields of a concatenated opcode and operand. -/
theorem encodingFields (i : Instr) : EncodingFields.Statement i := by
  have h := word_toNat i.opcode i.operand
  have hn := i.operand.isLt
  refine ⟨h, ?_, ?_⟩ <;> apply BitVec.eq_of_toNat_eq <;>
    simp only [opcField, opndField, encode, BitVec.extractLsb'_toNat, Nat.shiftRight_eq_div_pow] <;>
    rw [h] <;> omega

theorem EncodingFields.incValue (n : Opnd) : EncodingFields.Statement (.incValue n) := encodingFields _
theorem EncodingFields.decValue (n : Opnd) : EncodingFields.Statement (.decValue n) := encodingFields _
theorem EncodingFields.incPointer (n : Opnd) : EncodingFields.Statement (.incPointer n) := encodingFields _
theorem EncodingFields.decPointer (n : Opnd) : EncodingFields.Statement (.decPointer n) := encodingFields _
theorem EncodingFields.read (n : Opnd) : EncodingFields.Statement (.read n) := encodingFields _
theorem EncodingFields.write (n : Opnd) : EncodingFields.Statement (.write n) := encodingFields _
theorem EncodingFields.loopOpen (t : Opnd) : EncodingFields.Statement (.loopOpen t) := encodingFields _
theorem EncodingFields.loopClose (t : Opnd) : EncodingFields.Statement (.loopClose t) := encodingFields _

end Sys2Proof.Laws
end

