-- ==== Sys2Proof/Tests/Slice0.lean ====
section
/-! SUPPORT. The model's own tests, each a named theorem. The expected values are the spec's: 95_test_vectors.md (its table or
program is named), or a worked example or a table of the rule named. The witnesses at the end show, for each statement with
hypotheses, a state and operands that meet them, at the edges of the ranges its clauses speak of. -/

namespace Sys2Proof.Tests

open Sys2Proof.Machine

/-! ### Small states -/

/-- The next state of an outcome. -/
def nextOf : Host.Outcome State Fault Refusal → Option State
  | .next t => some t
  | .fault _ => none
  | .refused _ => none

/-- A run in progress over an image of the given words, with 10 cells, at index `pc`, pointer `ptr`, and the current cell
`cell`; every other cell is 0, the configuration is that of reset. -/
def running (words : List Word) (pc ptr : Nat) (cell : Int) : State :=
  { State.reset with
    mem := { imem := words.zipIdx.map fun e => (e.2, e.1), tape := if cell = 0 then [] else [(ptr, cell)], tapeLive := 10 }
    runState := .running, pc := BitVec.ofNat 32 pc, ptr := BitVec.ofNat 32 ptr
    cellCount := 10#32, progLen := BitVec.ofNat 32 words.length
    env := { Env.initial with runCells := 10, held := [(BitVec.ofNat 32 pc, BitVec.ofNat 32 ptr)] } }

/-- The same state with a value range. -/
def ranged (lo hi : Int) (s : State) : State := { s with valueMin := lo, valueMax := hi }

/-- The same state with the word of `POLICY`. -/
def policed (p : Word) (s : State) : State := { s with policy := p }

/-- The same state with tokens on offer. -/
def offered (ts : List Token) (s : State) : State := { s with env := { s.env with input := ts } }

/-- The same state with what is offered after the queued tokens. -/
def supplied (u : Source) (s : State) : State := { s with env := { s.env with source := u } }

/-- The same state with a host that accepts output. -/
def accepting (s : State) : State := { s with env := { s.env with ready := true } }

/-- The same state with turns to come. -/
def turned (ts : List Turn) (s : State) : State := { s with env := { s.env with turns := ts } }

/-- What the tests look at after a step: the current cell, `PC`, and `STATUS`. -/
def after (s : State) : Option (Option Int × Nat × Nat) :=
  (nextOf (step s)).map fun t => (t.cell?, t.pc.toNat, t.status.toNat)

/-- `PTR`, `PC` and `STATUS` after a step. -/
def pointerAfter (s : State) : Option (Nat × Nat × Nat) :=
  (nextOf (step s)).map fun t => (t.ptr.toNat, t.pc.toNat, t.status.toNat)

/-- `REP`, `PC`, the tokens consumed, the output and the current cell after a step. -/
def beatAfter (s : State) : Option (Nat × Nat × Nat × List Nat × Option Int) :=
  (nextOf (step s)).map fun t =>
    (t.rep.toNat, t.pc.toNat, t.env.consumed, t.env.output.map BitVec.toNat, t.cell?)

/-! ### Well-formedness: each check refuses an ill-formed term (R58, R68) -/

theorem test_zero_count_incValue_refused : (Instr.incValue 0#29).wellFormed = false := by decide
theorem test_zero_count_decValue_refused : (Instr.decValue 0#29).wellFormed = false := by decide
theorem test_zero_count_incPointer_refused : (Instr.incPointer 0#29).wellFormed = false := by decide
theorem test_zero_count_decPointer_refused : (Instr.decPointer 0#29).wellFormed = false := by decide
theorem test_zero_count_read_refused : (Instr.read 0#29).wellFormed = false := by decide
theorem test_zero_count_write_refused : (Instr.write 0#29).wellFormed = false := by decide
/-- An open whose target is its own index. -/
theorem test_open_onto_itself_refused : Image.wellFormed [.loopOpen 0#29, .loopClose 0#29] = false := by decide
/-- An open whose target is no close (R101's example). -/
theorem test_open_onto_other_refused :
    Image.wellFormed [.loopOpen 2#29, .incValue 1#29, .decValue 1#29] = false := by decide
/-- Two opens that name one close (R101's example). -/
theorem test_two_opens_one_close_refused :
    Image.wellFormed [.loopOpen 2#29, .loopOpen 2#29, .loopClose 0#29] = false := by decide
/-- A close whose target is after it. -/
theorem test_close_forward_refused : Image.wellFormed [.incValue 1#29, .loopClose 5#29] = false := by decide
/-- A close whose open names another close. -/
theorem test_close_of_foreign_open_refused :
    Image.wellFormed [.loopOpen 1#29, .loopClose 0#29, .loopClose 0#29] = false := by decide
/-- Pairs that cross: 0 with 2, 1 with 3. -/
theorem test_crossed_pairs_refused :
    Image.wellFormed [.loopOpen 2#29, .loopOpen 3#29, .loopClose 0#29, .loopClose 1#29] = false := by decide
/-- An image with a zero count. -/
theorem test_image_with_zero_count_refused : Image.wellFormed [.write 0#29] = false := by decide
/-- For contrast, L1.2: `[[]]` with its pairs 0 and 3, 1 and 2. -/
theorem test_nested_pairs_accepted :
    Image.wellFormed [.loopOpen 3#29, .loopOpen 2#29, .loopClose 1#29, .loopClose 0#29] = true := by decide

/-! ### Decoding: a word written out bit by bit, `OPC` then the 29 bits of `OPND` (R56, R57) -/

theorem test_decode_incValue : decode 0b00000000000000000000000000001010#32 = .incValue 10#29 := by decide
theorem test_decode_decValue : decode 0b00100000000000000000000100101100#32 = .decValue 300#29 := by decide
theorem test_decode_incPointer : decode 0b01000000000000000000000000000101#32 = .incPointer 5#29 := by decide
theorem test_decode_decPointer : decode 0b01100000000000000000000000011000#32 = .decPointer 24#29 := by decide
theorem test_decode_read : decode 0b10000000000000000000000000000011#32 = .read 3#29 := by decide
theorem test_decode_write : decode 0b10110000000000000000000000000001#32 = .write 268435457#29 := by decide
theorem test_decode_loopOpen : decode 0b11011111111111111111111111111111#32 = .loopOpen 536870911#29 := by decide
theorem test_decode_loopClose : decode 0b11100000000000000000000000011000#32 = .loopClose 24#29 := by decide
/-- R58: the count is not sign-extended: the highest operand bit counts 2^28. -/
theorem test_decode_count_unsigned : (decode 0x1FFFFFFF#32).operand.toNat = 536870911 := by decide
/-- R47: little-endian bytes. -/
theorem test_bytes_little_endian : wordBytes 0xA0000001#32 = [0x01#8, 0x00#8, 0x00#8, 0xA0#8] := by decide
/-- R47: a file that ends inside a word is no image. -/
theorem test_truncated_file_refused : imageOfBytes [0x01#8, 0#8, 0#8, 0#8, 0xA0#8] = .error .truncatedWord := by rfl
theorem test_decodeTableWord : decodeTableWord 32 0xC000001D = some (.loopOpen 29#29) := by decide

/-! ### The instructions (L2.1 to L2.5, P4, P6b, P10, P11), at most two theorems each -/

/-- Range 10..20, cell 0, `Saturate`: clamped to the bound of the direction (C1). -/
theorem test_incValue_saturates_upward :
    after (policed 1#32 (ranged 10 20 (running [0x00000001#32] 0 0 0))) = some (some 20, 1, 1) := by decide
/-- The widest range and the largest count, `Wrap` (last rows of L2.1). -/
theorem test_incValue_wraps_widest :
    after (ranged (-2147483648) 2147483647 (running [0x1FFFFFFF#32] 0 3 2147483647)) =
      some (some (-1610612738), 1, 1) := by decide
/-- Range 0..100, cell 200, `Saturate`: 0, not 100 (C1). -/
theorem test_decValue_saturates_downward :
    after (policed 1#32 (ranged 0 100 (running [0x20000001#32] 0 0 200))) = some (some 0, 1, 1) := by decide
/-- Range 0..255, cell 0, `Error`: `STATUS` 0x17, cell and `PC` unchanged. -/
theorem test_decValue_error :
    after (policed 0#32 (running [0x20000001#32] 0 0 0)) = some (some 0, 0, 0x17) := by decide

theorem test_incPointer_wraps : pointerAfter (policed 0x8#32 (running [0x40000019#32] 0 0 0)) = some (5, 1, 1) := by
  decide
theorem test_incPointer_error : pointerAfter (running [0x40000001#32] 0 9 0) = some (9, 0, 0x27) := by decide
theorem test_decPointer_wraps : pointerAfter (policed 0x8#32 (running [0x60000018#32] 0 3 0)) = some (9, 1, 1) := by
  decide
/-- P4 under `PP` = Error: the fault's record. -/
theorem test_decPointer_scenario4 :
    (nextOf (step (running [0x60000001#32] 0 0 0))).map (fun t => (t.status.toNat, t.faultPc, t.faultInfo)) =
      some (0x27, 0#32, 0x60000001#32) := by decide

/-- 0xFF is stored as 255; under `NoChange` EOF of an exhausted source leaves 0x69 (P6b); a zero count faults (L2.5). -/
theorem test_read_single :
    beatAfter (offered [.byte 0xFF#8] (running [0x80000001#32] 0 0 5)) = some (0, 1, 1, [], some 255) ∧
    beatAfter (supplied .exhausted (policed 0x42#32 (running [0x80000001#32] 0 0 0x69))) = some (0, 1, 1, [], some 0x69) ∧
    after (running [0x80000000#32] 0 0 5) = some (some 5, 0, 0x47) :=
  ⟨by decide, by decide, by decide⟩
/-- EOF under `NegativeOne`, mid-instruction: `REP` 1 and `PC` 0 after the first of two beats. -/
theorem test_read_eof_negative_one :
    beatAfter (offered [.eof, .eof] (policed 0x30#32 (running [0x80000002#32] 0 0 5))) =
      some (1, 0, 1, [], some (-1)) := by decide
/-- `low8(-129)` is 127 and the cell is not changed; a host that does not accept stalls the beat. -/
theorem test_write_truncates :
    beatAfter (accepting (running [0xA0000001#32] 0 0 (-129))) = some (0, 1, 0, [0x7F], some (-129)) ∧
    nextOf (step (running [0xA0000001#32] 0 0 72)) = some (running [0xA0000001#32] 0 0 72) := by decide
/-- P10: the illegal word at index 2 and the record it leaves. -/
theorem test_write_zero_count :
    (nextOf (step (running [0x00000041#32, 0xA0000001#32, 0xA0000000#32] 2 0 65))).map
      (fun t => (t.status.toNat, t.faultPc, t.faultInfo)) = some (0x47, 2#32, 0xA0000000#32) := by decide

/-- The image `+[-]` of L2.4. -/
def loopImage : List Word := [0x00000001#32, 0xC0000003#32, 0x20000001#32, 0xE0000001#32]

/-- Taken on 0 and not on 256, which is not zero. -/
theorem test_loopOpen : after (running loopImage 1 0 0) = some (some 0, 4, 1) ∧
    after (running loopImage 1 0 256) = some (some 256, 2, 1) := by decide
theorem test_loopOpen_at_progLen_faults : after (running [0xC0000001#32] 0 0 0) = some (some 0, 0, 0x47) := by decide
/-- Taken on -7 and not on 0. -/
theorem test_loopClose : after (running loopImage 3 0 (-7)) = some (some (-7), 2, 1) ∧
    after (running loopImage 3 0 0) = some (some 0, 4, 1) := by decide
theorem test_loopClose_at_itself_faults :
    after (running [0x00000001#32, 0xE0000001#32] 1 0 0) = some (some 0, 1, 0x47) := by decide
/-- P11: the empty image halts at its first step. -/
theorem test_empty_image_halts : after (running [] 0 0 0) = some (some 0, 0, 2) := by decide

/-! ### START, the host's registers, and the ports (L2.6, L2.7, P4) -/

/-- The host writes one register, then START, from reset: the cause recorded. -/
def causeAfter (offset value : Nat) : Nat × Nat :=
  let t := hostAct (.writeReg 0 1) (hostAct (.writeReg offset value) State.reset)
  (t.status.toNat, t.faultInfo.toNat)

theorem test_start_vp_reserved : causeAfter 0x18 3 = (0x37, 1) := by decide
theorem test_start_pp_reserved : causeAfter 0x18 0xC = (0x37, 2) := by decide
theorem test_start_ep_reserved : causeAfter 0x18 0x50 = (0x37, 3) := by decide
theorem test_start_lowest_cause : causeAfter 0x18 0x73 = (0x37, 1) := by decide
theorem test_start_range_empty : causeAfter 0x0C 0xFFFFFFFF = (0x37, 4) := by decide
theorem test_start_no_cells : causeAfter 0x10 0 = (0x37, 5) := by decide
theorem test_start_all_cells : causeAfter 0x10 32768 = (1, 0) := by decide
theorem test_start_too_many_cells : causeAfter 0x10 32769 = (0x37, 5) := by decide
theorem test_start_image_too_long : causeAfter 0x14 65537 = (0x37, 6) := by decide
theorem test_policy_reserved_bits_ignored :
    ((hostAct (.writeReg 0x18 0xFFFFFF82) State.reset).readReg 0x18).1 = 0x00000002 := by decide
theorem test_policy_keeps_reserved_encodings :
    ((hostAct (.writeReg 0x18 0x7F) State.reset).readReg 0x18).1 = 0x7F := by decide
theorem test_valueMin_sign_extended :
    ((hostAct (.writeReg 0x08 0xFFFFFF80) State.reset).valueMin,
     ((hostAct (.writeReg 0x08 0xFFFFFF80) State.reset).readReg 0x08).1) = (-128, 0xFFFFFF80) := by decide
theorem test_reset_registers :
    ([0x00, 0x04, 0x08, 0x0C, 0x10, 0x14, 0x18, 0x2C, 0x3C].map fun o => (State.reset.readReg o).1) =
      [0, 0, 0, 0xFF, 0x7530, 0, 2, 0, 0] := by decide
theorem test_write_while_running_ignored :
    hostAct (.writeReg 0x14 5) (running loopImage 1 0 0) = running loopImage 1 0 0 := by decide
/-- R46: what the tape port gives for a cell of -2 after a run. -/
theorem test_tape_port_sign_extended :
    (({ running [] 0 0 (-2) with runState := .done } : State).readTape 0).1 = 0xFFFFFFFE := by decide

/-- R83, R103: a START with `CELL_COUNT` = 2 and `VP` = 3, after a run over 10 cells that left cell 1 at 7, shows two cells,
and goes on showing them when the host then writes `CELL_COUNT`. -/
def faultedStart : State :=
  hostAct (.writeReg 0 1) { running [] 0 1 7 with runState := .done, cellCount := 2#32, policy := 3#32 }

theorem test_faulted_start_observation :
    faultedStart.runEnd?.map (fun e => (e.cells, e.faultCode, e.faultInfo)) = some ([some 0, some 7], 3#4, 1#32) ∧
    (hostAct (.writeReg 0x10 5) faultedStart).runEnd? = faultedStart.runEnd? := by decide
/-- R36, R83: after power-on the cells of such a START have no specified content. -/
theorem test_faulted_start_after_power_on :
    (hostAct (.writeReg 0 1) { State.reset with cellCount := 2#32, policy := 3#32 }).runEnd?.map RunEnd.cells =
      some [none, none] := by decide

/-! ### The input (R40, R42, R119 P5) -/

/-- Queued tokens first, then the bytes 1, 2, 1, 2, … without end. -/
theorem test_endless_bytes :
    ((List.range 6).map (supplied (.repeating [.byte 1#8, .byte 2#8]) (offered [.eof] State.reset)).env.token?) =
      [some .eof, some (.byte 1#8), some (.byte 2#8), some (.byte 1#8), some (.byte 2#8), some (.byte 1#8)] := by decide
/-- A beat takes the first token of an endless sequence of which nothing is known, and leaves the others. -/
theorem test_endless_free_sequence :
    (supplied (.endless 4 9) State.reset).takeToken.map (fun p => (p.1, p.2.env.source)) =
      some (Config.hostToken 4 9, .endless 4 10) := rfl

/-! ### The memories -/

/-- Writing the value an unlisted cell holds unlists the cell. -/
theorem test_zero_cell_unlisted : (Memory.setCell { imem := [], tape := [(2, 5), (7, -1)], tapeLive := 10 } 7 0).tape = [(2, 5)] := by
  decide
theorem test_cells_stay_sorted :
    (Memory.setCell { imem := [], tape := [(2, 5), (7, -1)], tapeLive := 10 } 4 9).tape = [(2, 5), (4, 9), (7, -1)] := by
  decide

/-! ### The producer (L1.1, L1.2, L1.3) -/

theorem test_produce_folds :
    produce Params.default "+++++>>><<-".toList =
      .ok [.incValue 5#29, .incPointer 3#29, .decPointer 2#29, .decValue 1#29] := by rfl
theorem test_produce_skips_other_characters : produce Params.default "+ a\n+".toList = .ok [.incValue 2#29] := by rfl
theorem test_produce_does_not_fold_io :
    produce Params.default ",,..".toList = .ok [.read 1#29, .read 1#29, .write 1#29, .write 1#29] := by rfl
theorem test_produce_brackets :
    produce Params.default "+[+]".toList =
      .ok [.incValue 1#29, .loopOpen 3#29, .incValue 1#29, .loopClose 1#29] := by rfl
theorem test_produce_unmatched_close : produce Params.default "[]]".toList = .error .unmatchedClose := by rfl
theorem test_produce_unmatched_open : produce Params.default "[[]".toList = .error .unmatchedOpen := by rfl
theorem test_produce_close_first : produce Params.default "][".toList = .error .unmatchedClose := by rfl
theorem test_produce_image_too_long :
    produce { Params.default with imemDepth := 2 } "+-+".toList = .error .imageTooLong := by rfl

/-! ### Witnesses: states and operands that meet the hypotheses of the statements -/

/-- EveryWordNamesOneInstruction: the lowest and the highest word of each opcode. -/
theorem witness_word_of_each_opcode :
    (List.range 8).all (fun k =>
      (BitVec.ofNat 32 (k * 2 ^ 29)).toNat / 2 ^ 29 == k &&
        (BitVec.ofNat 32 (k * 2 ^ 29 + (2 ^ 29 - 1))).toNat / 2 ^ 29 == k) = true := by decide

/-- StepRunsTheDecodedInstruction: with no turn planned, at the last word of the image. -/
theorem witness_step_no_turn_planned :
    ((running loopImage 3 0 5).env.turns = [] ∧ ([] : List Turn) = []) ∧
    (running loopImage 3 0 5).runState = .running ∧
    (running loopImage 3 0 5).pc.toNat < (running loopImage 3 0 5).progLen.toNat ∧
    (running loopImage 3 0 5).mem.word? (running loopImage 3 0 5).pc.toNat = some 0xE0000001#32 := by decide

/-- The same with the executor's turn planned and a host's after it. -/
theorem witness_step_turn_planned :
    (turned [.executor, .host .reset] (running loopImage 0 0 5)).env.turns = .executor :: [.host .reset] ∧
    (turned [.executor, .host .reset] (running loopImage 0 0 5)).mem.word? 0 = some 0x00000001#32 := by decide

/-- PlacedWordRunsFirstAfterReset: the highest word. -/
theorem witness_placed_word : 0xFFFFFFFF < 2 ^ 32 := by decide

/-- UnwrittenWordStopsTheModel: an image of one word, never written. -/
theorem witness_unwritten_word :
    ({ running [] 0 0 0 with progLen := 1#32 } : State).env.turns = [] ∧
    ({ running [] 0 0 0 with progLen := 1#32 } : State).runState = .running ∧
    ({ running [] 0 0 0 with progLen := 1#32 } : State).pc.toNat < 1 ∧
    ({ running [] 0 0 0 with progLen := 1#32 } : State).mem.word? 0 = none := by decide

/-- RunEndsPastTheLastInstruction: at `PC` = `PROG_LEN`, of an image of four words and of the empty one. -/
theorem witness_run_end :
    ((running loopImage 4 0 0).env.turns = [] ∧ (running loopImage 4 0 0).runState = .running ∧
      (running loopImage 4 0 0).progLen.toNat ≤ (running loopImage 4 0 0).pc.toNat) ∧
    ((running [] 0 0 0).runState = .running ∧ (running [] 0 0 0).progLen.toNat ≤ (running [] 0 0 0).pc.toNat) := by
  decide

/-- ExecutorRestsOutsideARun: in each of the three states outside a run. -/
theorem witness_outside_a_run :
    State.reset.env.turns = [] ∧ State.reset.runState ≠ .running ∧
    ({ running loopImage 4 0 0 with runState := .done } : State).runState ≠ .running ∧
    ({ running loopImage 4 0 0 with runState := .fault } : State).runState ≠ .running := by decide

/-- PolicyFunctionOfTheSpec: both bounds inside, their neighbours outside, and a range of one value. -/
theorem witness_policy_range :
    ((0 : Int) ≤ 0 ∧ (0 : Int) ≤ 255) ∧ ((0 : Int) ≤ 255 ∧ (255 : Int) ≤ 255) ∧
    ¬((0 : Int) ≤ -1 ∧ (-1 : Int) ≤ 255) ∧ ¬((0 : Int) ≤ 256 ∧ (256 : Int) ≤ 255) ∧ (7 : Int) ≤ 7 := by decide

/-- InRangeCandidateIsStored: a candidate on each bound of the value range, and on each end of the tape. -/
theorem witness_in_range :
    ((254 : Int) + (1#29 : Opnd).toNat = candidate .up 254 1#29 ∧ (running [] 0 0 254).cell? = some 254 ∧
      candidate .up 254 1#29 ≤ (running [] 0 0 254).valueMax) ∧
    ((running [] 0 0 1).cell? = some 1 ∧ (running [] 0 0 1).valueMin ≤ candidate .down 1 1#29) ∧
    (0 ≤ candidate .up (running [] 0 8 0).ptr.toNat 1#29 ∧
      candidate .up (running [] 0 8 0).ptr.toNat 1#29 ≤ (running [] 0 8 0).cellCount.toNat - 1) ∧
    (0 ≤ candidate .down (running [] 0 3 0).ptr.toNat 3#29) := by decide

/-- ErrorPolicyFaultsAndWritesNothing: one past each bound, of the value and of the pointer. -/
theorem witness_error_policy :
    ((policed 0#32 (running [] 0 0 255)).cell? = some 255 ∧ (policed 0#32 (running [] 0 0 255)).policy.toNat % 4 = 0 ∧
      ¬(0 ≤ candidate .up 255 1#29 ∧ candidate .up 255 1#29 ≤ 255)) ∧
    ((policed 0#32 (running [] 0 0 0)).cell? = some 0 ∧ ¬(0 ≤ candidate .down 0 1#29 ∧ candidate .down 0 1#29 ≤ 255)) ∧
    ((running [] 0 9 0).policy.toNat / 4 % 4 = 0 ∧ ¬(0 ≤ candidate .up 9 1#29 ∧ candidate .up 9 1#29 ≤ 10 - 1)) ∧
    ((running [] 0 0 0).policy.toNat / 4 % 4 = 0 ∧ ¬(0 ≤ candidate .down 0 1#29 ∧ candidate .down 0 1#29 ≤ 10 - 1)) := by
  decide

/-- SaturatePolicyClampsByDirection: from in range, from out of range on the far side, and on the pointer path. -/
theorem witness_saturate_policy :
    ((policed 5#32 (running [] 0 0 255)).cell? = some 255 ∧ (policed 5#32 (running [] 0 0 255)).policy.toNat % 4 = 1 ∧
      ¬(0 ≤ candidate .up 255 1#29 ∧ candidate .up 255 1#29 ≤ 255)) ∧
    ((policed 5#32 (ranged 0 100 (running [] 0 0 200))).cell? = some 200 ∧
      ¬(0 ≤ candidate .down 200 1#29 ∧ candidate .down 200 1#29 ≤ 100)) ∧
    ((policed 5#32 (running [] 0 9 0)).policy.toNat / 4 % 4 = 1 ∧ 0 < (policed 5#32 (running [] 0 9 0)).cellCount.toNat ∧
      (policed 5#32 (running [] 0 9 0)).ptr.toNat < (policed 5#32 (running [] 0 9 0)).cellCount.toNat ∧
      ¬(0 ≤ candidate .up 9 1#29 ∧ candidate .up 9 1#29 ≤ 10 - 1) ∧
      ¬(0 ≤ candidate .down 0 1#29 ∧ candidate .down 0 1#29 ≤ 10 - 1)) := by decide

/-- WrapPolicyStoresTheCongruentValue: past each bound of the value range and of the tape. -/
theorem witness_wrap_policy :
    ((policed 0xA#32 (running [] 0 0 255)).cell? = some 255 ∧ (policed 0xA#32 (running [] 0 0 255)).policy.toNat % 4 = 2 ∧
      (policed 0xA#32 (running [] 0 0 255)).valueMin ≤ (policed 0xA#32 (running [] 0 0 255)).valueMax ∧
      ¬(0 ≤ candidate .up 255 1#29 ∧ candidate .up 255 1#29 ≤ 255) ∧
      ¬(0 ≤ candidate .down 0 1#29 ∧ candidate .down 0 1#29 ≤ 255)) ∧
    ((policed 0xA#32 (running [] 0 9 0)).policy.toNat / 4 % 4 = 2 ∧
      0 < (policed 0xA#32 (running [] 0 9 0)).cellCount.toNat ∧
      ¬(0 ≤ candidate .up 9 1#29 ∧ candidate .up 9 1#29 ≤ 10 - 1) ∧
      ¬(0 ≤ candidate .down 0 1#29 ∧ candidate .down 0 1#29 ≤ 10 - 1)) := by decide

/-- WrapAtTheBounds: the cell at each bound, the pointer at each end; and the step answers a next state. -/
theorem witness_wrap_at_bounds :
    ((running [] 0 0 255).cell? = some (running [] 0 0 255).valueMax ∧ (running [] 0 0 255).policy.toNat % 4 = 2 ∧
      (nextOf (exec (.incValue 1#29) (running [] 0 0 255))).isSome = true) ∧
    ((running [] 0 0 0).cell? = some (running [] 0 0 0).valueMin ∧
      (nextOf (exec (.decValue 536870911#29) (running [] 0 0 0))).isSome = true) ∧
    ((policed 8#32 (running [] 0 9 0)).policy.toNat / 4 % 4 = 2 ∧
      (policed 8#32 (running [] 0 9 0)).ptr.toNat + 1 = (policed 8#32 (running [] 0 9 0)).cellCount.toNat ∧
      (nextOf (exec (.incPointer 1#29) (policed 8#32 (running [] 0 9 0)))).isSome = true) ∧
    ((policed 8#32 (running [] 0 0 0)).ptr = 0#32 ∧
      (nextOf (exec (.decPointer 536870911#29) (policed 8#32 (running [] 0 0 0)))).isSome = true) := by decide

/-- ValueInstructionLeavesTheCellInRange: a cell out of range before, a fault and a store after. -/
theorem witness_value_instruction :
    (running [] 0 0 300).runState = .running ∧ (running [] 0 0 300).valueMin ≤ (running [] 0 0 300).valueMax ∧
    (nextOf (exec (valueInstr .up 1#29) (running [] 0 0 300))).isSome = true ∧
    (nextOf (exec (valueInstr .down 0#29) (running [] 0 0 300))).isSome = true := by decide

/-- PointerStaysInRange: the pointer on the last cell, each policy. -/
theorem witness_pointer_instruction :
    (running [] 0 9 0).ptr.toNat < (running [] 0 9 0).cellCount.toNat ∧
    (policed 0#32 (running [] 0 9 0)).policy.toNat / 4 % 4 ≠ 3 ∧ (policed 4#32 (running [] 0 9 0)).policy.toNat / 4 % 4 ≠ 3 ∧
    (policed 8#32 (running [] 0 9 0)).policy.toNat / 4 % 4 ≠ 3 := by decide

/-- FoldingLawUnderWrapAndSaturate: `Wrap` from out of range, `Saturate` from the bound, the largest total count. -/
theorem witness_folding :
    (536870910#29 : Opnd) ≠ 0#29 ∧ (1#29 : Opnd) ≠ 0#29 ∧
    (536870910#29 : Opnd).toNat + (1#29 : Opnd).toNat < 2 ^ 29 ∧
    ((running [] 0 0 (-1)).cell? = some (-1) ∧ (running [] 0 0 (-1)).policy.toNat % 4 = 2) ∧
    ((policed 1#32 (running [] 0 0 255)).cell? = some 255 ∧ (policed 1#32 (running [] 0 0 255)).policy.toNat % 4 = 1 ∧
      (0 : Int) ≤ 255 ∧ (255 : Int) ≤ (policed 1#32 (running [] 0 0 255)).valueMax) := by decide

/-- FoldingLawUnderError: 250 + 2 + 3 ends on the bound, 250 + 2 + 4 faults at the second move, 250 + 6 + 1 at the first. -/
theorem witness_folding_error :
    (policed 0#32 (running [] 0 0 250)).runState = .running ∧ (policed 0#32 (running [] 0 0 250)).cell? = some 250 ∧
    (policed 0#32 (running [] 0 0 250)).policy.toNat % 4 = 0 ∧ (0 : Int) ≤ 250 ∧ (250 : Int) ≤ 255 ∧
    candidate .up 250 (2#29 + 3#29) = 255 ∧ candidate .up 250 (2#29 + 4#29) = 256 ∧ candidate .up 250 6#29 = 256 := by
  decide

/-- ReadBeatStoresTheToken: a byte, EOF of an exhausted source, and EOF under the last assigned encoding and under none. -/
theorem witness_read_beat :
    ((offered [.byte 0xFF#8] (running [] 0 9 5)).env.input = .byte 0xFF#8 :: [] ∧
      (offered [.byte 0xFF#8] (running [] 0 9 5)).cell? = some 5) ∧
    ((offered [.eof, .eof] (policed 0x40#32 (running [] 0 0 5))).env.input = .eof :: [.eof] ∧
      (policed 0x40#32 (running [] 0 0 5)).epField = 4) ∧
    (supplied .exhausted (running [] 0 0 5)).env.token? 0 = some .eof ∧
    (offered [.byte 0xFF#8] (running [] 0 9 5)).env.token? 0 = some (.byte 0xFF#8) ∧
    5 ≤ (policed 0x50#32 (running [] 0 0 5)).epField := by decide

/-- ReadStallsWithoutAToken, WriteBeatEmitsTheLowByte, WriteStallsUntilAccepted. -/
theorem witness_stalls_and_write :
    (1#29 : Opnd) ≠ 0#29 ∧ (running [] 0 0 5).env.token? 0 = none ∧
    (running [] 0 0 (-129)).cell? = some (-129) ∧
    (accepting (running [] 0 0 (-129))).env.ready = true ∧ (running [] 0 0 (-129)).env.ready = false := by decide

/-- ReadTakesExactlyNTokens, WriteEmitsExactlyNCopies: no beat, one short of all, and all. -/
theorem witness_beats :
    (2#29 : Opnd) ≠ 0#29 ∧ (offered [.eof, .byte 1#8] (running [] 0 0 5)).rep = 0#29 ∧
    (offered [.eof, .byte 1#8] (running [] 0 0 5)).env.token? 0 = ([.eof, .byte 1#8] : List Token)[0]? ∧
    (offered [.eof, .byte 1#8] (running [] 0 0 5)).env.token? 1 = ([.eof, .byte 1#8] : List Token)[1]? ∧
    (offered [.eof, .byte 1#8] (running [] 0 0 5)).cell? = some 5 ∧
    (offered [.eof, .byte 1#8] (running [] 0 0 5)).epField < 5 := by decide

/-- ReadTakesExactlyNTokens over an endless input: the first three tokens of a repeated pair, and of a free sequence. -/
theorem witness_endless_beats :
    (∀ k, k < 3 → (supplied (.repeating [.eof, .byte 1#8]) (running [] 0 0 5)).env.token? k =
      ([.eof, .byte 1#8, .eof] : List Token)[k]?) ∧
    (∀ k, (supplied (.endless 0 0) (running [] 0 0 5)).env.token? k = some (Config.hostToken 0 k)) :=
  ⟨by decide, fun k => by simp [Env.token?, Source.token?, supplied, running, Env.initial]⟩

/-- ReadAndWriteMaySplit: `Read(1); Read(1)` beside `Read(2)`, and the same of `Write`. -/
theorem witness_split :
    (1#29 : Opnd).toNat + (1#29 : Opnd).toNat < 2 ^ 29 ∧
    (∀ k, k < (1#29 : Opnd).toNat + (1#29 : Opnd).toNat →
      ((offered [.eof, .byte 1#8] (running [] 0 0 5)).env.token? k).isSome = true) ∧
    (accepting (offered [.eof, .byte 1#8] (running [] 0 0 5))).env.ready = true ∧
    (accepting (offered [.eof, .byte 1#8] (running [] 0 0 5))).rep = 0#29 := by decide

/-- LoopOpenSkipsOnZero: the nearest and the farthest legal target, and the nearest illegal ones. -/
theorem witness_loopOpen :
    ((running loopImage 1 0 0).pc.toNat < (2#29 : Opnd).toNat ∧ (3#29 : Opnd).toNat < (running loopImage 1 0 0).progLen.toNat ∧
      (running loopImage 1 0 0).cell? = some 0) ∧
    ¬((running loopImage 1 0 0).pc.toNat < (1#29 : Opnd).toNat) ∧
    ¬((4#29 : Opnd).toNat < (running loopImage 1 0 0).progLen.toNat) := by decide

/-- LoopCloseRepeatsOnNonZero: the nearest and the farthest legal target, and the nearest illegal one. -/
theorem witness_loopClose :
    ((2#29 : Opnd).toNat < (running loopImage 3 0 256).pc.toNat ∧ (0#29 : Opnd).toNat < (running loopImage 3 0 256).pc.toNat ∧
      (running loopImage 3 0 256).cell? = some 256) ∧
    (running loopImage 3 0 256).pc.toNat ≤ (3#29 : Opnd).toNat := by decide

/-- BothReadingsOfABracketAgree: the pair 1 and 3 of `+[-]`, from each side. -/
theorem witness_pair :
    ((1#29 : Opnd).toNat < (running loopImage 3 0 5).pc.toNat ∧
      (running loopImage 3 0 5).pc.toNat = (3#29 : Opnd).toNat ∧
      (3#29 : Opnd).toNat < (running loopImage 3 0 5).progLen.toNat ∧ (running loopImage 3 0 5).cell? = some 5) ∧
    ((running loopImage 1 0 0).pc.toNat < (3#29 : Opnd).toNat ∧
      (3#29 : Opnd).toNat < (running loopImage 1 0 0).progLen.toNat ∧
      (running loopImage 1 0 0).pc.toNat = (1#29 : Opnd).toNat ∧ (running loopImage 1 0 0).cell? = some 0) := by decide

/-- LoopIsLeftOnlyOnZero: each bracket, both ways, in a run before and after. -/
theorem witness_loop_is_left :
    (nextOf (exec (.loopClose 1#29) (running loopImage 3 0 0))).map State.runState = some .running ∧
    (nextOf (exec (.loopClose 1#29) (running loopImage 3 0 5))).map State.runState = some .running ∧
    (nextOf (exec (.loopOpen 3#29) (running loopImage 1 0 0))).map State.runState = some .running ∧
    (nextOf (exec (.loopOpen 3#29) (running loopImage 1 0 5))).map State.runState = some .running := by decide

/-- IllegalWordsFaultExactly: each of the three ways to be illegal, at its edge. -/
theorem witness_illegal :
    IllegalHere (running loopImage 1 0 0) (.write 0#29) ∧ IllegalHere (running loopImage 1 0 0) (.loopOpen 1#29) ∧
    IllegalHere (running loopImage 1 0 0) (.loopOpen 4#29) ∧ IllegalHere (running loopImage 1 0 0) (.loopClose 1#29) :=
  ⟨.inl (by decide), .inr (.inl ⟨_, rfl, by decide⟩), .inr (.inl ⟨_, rfl, by decide⟩), .inr (.inr ⟨_, rfl, by decide⟩)⟩

/-- IllegalWordsFaultExactly, its other clause, and EachFamilyRaisesItsOwnFault: legal instructions that fault and that do
not. -/
theorem witness_legal :
    ¬IllegalHere (policed 0#32 (running loopImage 1 9 255)) (.incValue 1#29) ∧
    ¬IllegalHere (policed 0#32 (running loopImage 1 9 255)) (.incPointer 1#29) ∧
    ¬IllegalHere (policed 0#32 (running loopImage 1 9 255)) (.loopOpen 3#29) ∧
    (nextOf (exec (.incValue 1#29) (policed 0#32 (running loopImage 1 9 255)))).map State.runState = some .fault ∧
    (nextOf (exec (.incPointer 1#29) (policed 0#32 (running loopImage 1 9 255)))).map State.runState = some .fault ∧
    (nextOf (exec (.loopOpen 3#29) (policed 0#32 (running loopImage 1 9 255)))).map State.runState = some .running :=
  ⟨by simp [IllegalHere, Instr.partner?, Instr.operand], by simp [IllegalHere, Instr.partner?, Instr.operand],
    by simp [IllegalHere, Instr.partner?, running, policed, loopImage], by decide, by decide, by decide⟩

/-- FaultsArePrecise: a step that faults, of each family that can. -/
theorem witness_fault :
    (nextOf (exec (.decValue 1#29) (policed 0#32 (running [] 0 0 0)))).map State.runState = some .fault ∧
    (nextOf (exec (.decPointer 1#29) (running [] 0 0 0))).map State.runState = some .fault ∧
    (nextOf (exec (.loopClose 0#29) (running [] 0 0 0))).map State.runState = some .fault := by decide

/-- FaultRecordStaysUntilStartOrReset: a run that ended on a fault, its own turn, and a host's read and write after it. -/
theorem witness_fault_record_stays :
    ({ running [] 0 0 0 with runState := .fault } : State).params.ok = true ∧
    (nextOf (step { running [] 0 0 0 with runState := .fault })).isSome = true ∧
    (HostAction.readReg 0x24).startsRun = false ∧ (HostAction.writeReg 0 2).startsRun = false ∧
    (HostAction.readReg 0x24) ≠ .reset := by decide

/-- StartBeginsAFreshRun, StartWithABadConfigurationFaults, HostWritesAreIgnoredWhileRunning: a run in progress, and a good and a bad configuration outside
one. -/
theorem witness_start :
    State.reset.params.ok = true ∧ 1 % 2 = 1 ∧ (running [] 0 0 0).runState = .running ∧ State.reset.runState ≠ .running ∧
    State.reset.firstFailingCheck = 0 ∧ (policed 3#32 State.reset).runState ≠ .running ∧
    (policed 3#32 State.reset).firstFailingCheck = 1 ∧
    ({ State.reset with progLen := 65537#32 } : State).firstFailingCheck = 6 := by decide

/-- ObservationOfAnEndedRun: a run in progress; a START that faults; an ended run, its own turn and a host's after it. -/
theorem witness_ended_run :
    (running [] 0 0 0).runState = .running ∧ State.reset.params.ok = true ∧
    (policed 3#32 State.reset).runState ≠ .running ∧ (policed 3#32 State.reset).firstFailingCheck ≠ 0 ∧
    faultedStart.runState ≠ .running ∧ faultedStart.params.ok = true ∧ (nextOf (step faultedStart)).isSome = true ∧
    (nextOf (step (turned [.host (.writeReg 0x10 5)] faultedStart))).isSome = true ∧
    (HostAction.writeReg 0x10 5).startsRun = false ∧ HostAction.writeReg 0x10 5 ≠ .reset := by decide

/-- StartMeetsTheLaunchPremises: the image `+[-]` written and its length set, the input endless. -/
def beforeLaunch : State := supplied (.endless 0 0) { running loopImage 0 0 0 with runState := .idle }

theorem witness_launch :
    beforeLaunch.params.ok = true ∧ beforeLaunch.runState ≠ .running ∧ beforeLaunch.firstFailingCheck = 0 ∧
    beforeLaunch.progLen.toNat = loopImage.length ∧
    (∀ a, a < loopImage.length → beforeLaunch.mem.word? a = loopImage[a]?) ∧
    (∀ k, beforeLaunch.env.token? k = some (Config.hostToken 0 k)) :=
  ⟨by decide, by decide, by decide, by decide, by decide,
    fun k => by simp [Env.token?, Source.token?, beforeLaunch, supplied, running, Env.initial]⟩

/-- ResetValues: the largest instance whose reset configuration is illegal. -/
theorem witness_small_instance :
    ({ Params.default with tapeDepth := 29999 } : Params).tapeDepth < 30000 ∧
    ({ Params.default with tapeDepth := 29999 } : Params).ok = true := by decide

/-- RegisterMapReads, RegisterMapWrites, PolicyKeepsItsSevenBits: the value bounds at the ends of 32 bits, the largest written
word, offsets beside the map. -/
theorem witness_register_map :
    (ranged (-2147483648) 2147483647 State.reset).params.ok = true ∧
    (-(2 ^ (State.reset.params.wCell - 1)) : Int) ≤ -2147483648 ∧ (2147483647 : Int) < 2 ^ (State.reset.params.wCell - 1) ∧
    0xFFFFFFFF < 2 ^ State.reset.params.hostW ∧ 0x2B % 4 ≠ 0 ∧ 0x2C ≤ 0x2C := by decide

/-- CursorAndPointerReads: a run with two boundaries recorded, and none. -/
theorem witness_cursor_reads :
    ((nextOf (step (running loopImage 0 0 0))).map fun t => (t.runState, t.env.held)) =
      some (.running, [(1#32, 0#32), (0#32, 0#32)]) ∧ State.reset.runState ≠ .running := by decide

/-- MemoryPorts: the last word and the last cell of the memories, and the first index past each. -/
theorem witness_memory_ports :
    State.reset.runState ≠ .running ∧ 65535 < State.reset.params.imemDepth ∧ State.reset.params.imemDepth ≤ 65536 ∧
    State.reset.params.tapeDepth ≤ 32768 ∧
    ({ running [] 0 9 (-2) with runState := .done } : State).mem.cell? 9 = some (-2) := by decide

/-- EveryStepKeepsTheInvariant, TheMachineNeverStops, StatusLayout: a run in progress meets the invariant; the image `+[-]` at its last word, the pointer on the last cell. -/
theorem witness_invariant : (running loopImage 3 9 (-7)).Inv where
  fits :=
    { params := by decide
      memory := by decide
      words := by decide
      cells := by unfold fitsCell; decide
      live := by decide
      valueMin := by unfold fitsCell; decide
      valueMax := by unfold fitsCell; decide
      policy := by decide }
  run := fun _ => ⟨by decide, by decide, by decide, by decide, by decide, by decide⟩
  rep := .inl rfl
  idle := fun _ => rfl
  record := ⟨fun _ => ⟨rfl, rfl, rfl⟩, fun h => absurd h (by decide)⟩

/-- The same in the middle of a `Read(3)`, two beats done. -/
theorem witness_invariant_mid_read : ({ running [0x80000003#32] 0 0 65 with rep := 2#29 } : State).Inv where
  fits :=
    { params := by decide
      memory := by decide
      words := by decide
      cells := by unfold fitsCell; decide
      live := by decide
      valueMin := by unfold fitsCell; decide
      valueMax := by unfold fitsCell; decide
      policy := by decide }
  run := fun _ => ⟨by decide, by decide, by decide, by decide, by decide, by decide⟩
  rep := .inr ⟨by decide, 0x80000003#32, 3#29, by decide, .inl (by decide), by decide⟩
  idle := fun h => absurd rfl h
  record := ⟨fun _ => ⟨rfl, rfl, rfl⟩, fun h => absurd h (by decide)⟩

/-- EveryStepKeepsTheInvariant and TheMachineNeverStops: the next word is written, and a step answers a next state. -/
theorem witness_next_word_loaded :
    (running loopImage 3 9 (-7)).NextWordLoaded ∧ (nextOf (step (running loopImage 3 9 (-7)))).isSome = true :=
  ⟨fun _ _ => by decide, by decide⟩

/-- ReachableStatesMeetTheSpecInvariants, InvariantHoldsAtReset: from reset, in a small legal instance, a host loads one word, sets `CELL_COUNT` and
`PROG_LEN` and starts a run; the state after it is RUNNING. -/
theorem witness_reachable :
    ({ Params.default with tapeDepth := 4, imemDepth := 1 } : Params).ok = true ∧
    ((nextOf (Host.Core.run Sys2Proof.core 4
      ({ State.reset with
          params := { Params.default with tapeDepth := 4, imemDepth := 1 }
          env := { Env.initial with turns := [.host (.writeImage 0 0x00000001#32), .host (.writeReg 0x10 4),
            .host (.writeReg 0x14 1), .host (.writeReg 0 1)] } } : State))).map State.runState) = some .running := by
  decide

/-- OnlyTheListedTransitionsOfState: a step of each kind that changes `STATE`. -/
theorem witness_transitions :
    State.reset.params.ok = true ∧
    (nextOf (step (turned [.host .reset] (running loopImage 3 0 5)))).map State.runState = some .idle ∧
    (nextOf (step (turned [.host (.writeReg 0 1)] State.reset))).map State.runState = some .running ∧
    (nextOf (step (turned [.host (.writeReg 0 1)] (policed 3#32 State.reset)))).map State.runState = some .fault ∧
    (nextOf (step (running loopImage 4 0 0))).map State.runState = some .done ∧
    (nextOf (step (turned [.executor] (running [0x60000001#32] 0 0 0)))).map State.runState = some .fault := by decide

/-- ExecutorAndHostWriteApart, OneTurnTouchesOneCellAndOneToken: the executor's turn answers a next state, and an action that is
neither a START nor a reset. -/
theorem witness_turn :
    (nextOf (executorTurn (offered [.eof] (running [0x80000001#32] 0 0 5)))).isSome = true ∧
    (nextOf (executorTurn State.reset)).isSome = true ∧ (HostAction.writeImage 0 0#32).startsRun = false ∧
    (HostAction.writeImage 0 0#32) ≠ .reset := by decide

/-- LastStepOnlyEndsTheRun: a last step that halts and one that faults. -/
theorem witness_last_step :
    (nextOf (executorTurn (running loopImage 4 0 0))).map State.runState = some .done ∧
    (nextOf (executorTurn (running [0x60000001#32] 0 0 0))).map State.runState = some .fault := by decide

/-- FoldedRunBecomesOneInstruction: the shortest and the longest run, in the smallest image. -/
theorem witness_folded_run :
    (1 ≤ ({ Params.default with imemDepth := 1 } : Params).imemDepth) ∧ 1 ≤ 1 ∧ 536870911 < 2 ^ 29 := by decide

/-- OnlyBalancedSourcesHaveAnImage, ProducedImagesAreWellPaired: a source with nested pairs has an image. -/
theorem witness_source_with_image :
    Params.default.ok = true ∧
    produce Params.default "[[]]".toList = .ok [.loopOpen 3#29, .loopOpen 2#29, .loopClose 1#29, .loopClose 0#29] :=
  ⟨by decide, by rfl⟩

end Sys2Proof.Tests
end

section
/-! SUPPORT. The frames of the executor's turn and of a host action, the memories inside their depths (R37, R38), and the
invariant of R24: one rule for each state operation, and the statements assembled from the rules. -/

namespace Sys2Proof.Machine

/-! ### The configuration and the fault record are left alone -/

theorem State.SameConfig.refl (s : State) : s.SameConfig s := ⟨rfl, rfl, rfl, rfl, rfl, rfl⟩

theorem State.SameConfig.trans {s t u : State} (h : s.SameConfig t) (h' : t.SameConfig u) : s.SameConfig u :=
  ⟨h'.params.trans h.params, h'.valueMin.trans h.valueMin, h'.valueMax.trans h.valueMax,
    h'.cellCount.trans h.cellCount, h'.progLen.trans h.progLen, h'.policy.trans h.policy⟩

theorem State.SameRecord.refl (s : State) : s.SameRecord s := ⟨rfl, rfl, rfl, rfl⟩

/-- Taking a token leaves the block alone, and the `CELL_COUNT` recorded at START. -/
theorem takeToken_env {s s' : State} {tok : Token} (h : s.takeToken = some (tok, s')) :
    ∃ e : Env, s' = { s with env := e } ∧ e.runCells = s.env.runCells := by
  obtain ⟨-, -, -, hs⟩ := takeToken_eq_some h
  exact ⟨s'.env, by rw [hs], by rw [hs]⟩

theorem State.SameConfig.beatEnd {s u : State} (h : s.SameConfig u) (n : Opnd) : s.SameConfig (u.beatEnd n) :=
  h.trans (beatFrame rfl rfl rfl (.refl u) (.refl u)).config

theorem sameConfig_noteBoundary (s : State) : s.SameConfig s.noteBoundary :=
  ⟨by simp, by simp, by simp, by simp, by simp, by simp⟩

/-- R110: no instruction writes a configuration register or an instruction word. -/
theorem exec_sameConfig {i : Instr} {s t : State} (h : exec i s = .next t) :
    s.SameConfig t ∧ t.mem.imem = s.mem.imem := by
  cases exec_cases h with
  | illegal | valueFault | pointerFault => exact ⟨⟨rfl, rfl, rfl, rfl, rfl, rfl⟩, rfl⟩
  | readStall | writeStall => exact ⟨.refl s, rfl⟩
  | valueStored dir n v r => exact ⟨(valueFrame s r).config, rfl⟩
  | pointerMoved dir n r => exact ⟨(pointerFrame s r).config, rfl⟩
  | openSkips | openEnters | closeRepeats | closeLeaves => exact ⟨⟨rfl, rfl, rfl, rfl, rfl, rfl⟩, rfl⟩
  | readKept n tok s' _ hs =>
    obtain ⟨e, rfl, -⟩ := takeToken_env hs
    have hc : s.SameConfig { s with env := e } := ⟨rfl, rfl, rfl, rfl, rfl, rfl⟩
    exact ⟨hc.beatEnd n, by simp⟩
  | readStored n tok s' v _ hs =>
    obtain ⟨e, rfl, -⟩ := takeToken_env hs
    have hc : s.SameConfig (State.setCell { s with env := e } v) := ⟨rfl, rfl, rfl, rfl, rfl, rfl⟩
    exact ⟨hc.beatEnd n, by simp⟩
  | writeBeat n v =>
    have hc : s.SameConfig (s.emit (low8 v)) := ⟨rfl, rfl, rfl, rfl, rfl, rfl⟩
    exact ⟨hc.beatEnd n, by simp⟩

/-- R110: the executor's turn writes no configuration register and no instruction word. -/
theorem executorTurn_sameConfig {s t : State} (h : executorTurn s = .next t) :
    s.SameConfig t ∧ t.mem.imem = s.mem.imem := by
  obtain ⟨-, rfl⟩ | ⟨-, -, rfl⟩ | ⟨-, -, w, u, -, hu, rfl⟩ := executorTurn_next h
  · exact ⟨.refl _, rfl⟩
  · exact ⟨⟨rfl, rfl, rfl, rfl, rfl, rfl⟩, rfl⟩
  · obtain ⟨hc, hm⟩ := exec_sameConfig hu
    exact ⟨hc.trans (sameConfig_noteBoundary u), by rw [State.noteBoundary_mem, hm]⟩

/-- R117: START writes no configuration register. -/
theorem sameConfig_start (s : State) : s.SameConfig s.start := by
  obtain ⟨-, h⟩ | ⟨-, -, h⟩ | ⟨-, -, h⟩ := start_cases s <;> rw [h] <;> exact ⟨rfl, rfl, rfl, rfl, rfl, rfl⟩

/-! ### The memories inside their depths -/

/-- Memories in canonical form, inside the depths the parameters give, with cells of `W_CELL` bits: what `State.Fits` asks
of them. -/
structure Memory.FitsIn (m : Memory) (p : Params) : Prop where
  wf : m.wf = true
  words : ∀ e ∈ m.imem, e.1 < p.imemDepth
  cells : ∀ e ∈ m.tape, e.1 < p.tapeDepth ∧ fitsCell p e.2
  live : m.tapeLive ≤ p.tapeDepth

theorem Memory.fitsIn_powerOn (p : Params) : Memory.powerOn.FitsIn p :=
  ⟨Memory.wf_powerOn, by simp [Memory.powerOn], by simp [Memory.powerOn], Nat.zero_le _⟩

theorem Memory.FitsIn.setWord {m : Memory} {p : Params} (h : m.FitsIn p) {a : Nat} (ha : a < p.imemDepth) (w : Word) :
    (m.setWord a w).FitsIn p where
  wf := Memory.wf_setWord a w h.wf
  words e he := by
    rcases mem_putEntry he with rfl | he
    · exact ha
    · exact h.words e he
  cells := h.cells
  live := h.live

theorem Memory.FitsIn.setCell {m : Memory} {p : Params} (h : m.FitsIn p) {a : Nat} {v : Int} (ha : a < p.tapeDepth)
    (hv : fitsCell p v) : (m.setCell a v).FitsIn p where
  wf := Memory.wf_setCell a v h.wf
  words := h.words
  cells e he := by
    rcases Memory.mem_tape_setCell he with rfl | he
    · exact ⟨ha, hv⟩
    · exact h.cells e he
  live := h.live

theorem Memory.FitsIn.clearCells {m : Memory} {p : Params} (h : m.FitsIn p) {n : Nat} (hn : n ≤ p.tapeDepth) :
    (m.clearCells n).FitsIn p where
  wf := Memory.wf_clearCells n h.wf
  words := h.words
  cells e he := h.cells e (List.mem_filter.1 he).1
  live := hn

/-! ### Values that fit a cell -/

/-- R6: a cell has at least nine bits. -/
theorem Params.nine_le_wCell {p : Params} (h : p.ok = true) : 9 ≤ p.wCell := by
  simp only [Params.ok, Bool.and_eq_true, decide_eq_true_eq] at h
  omega

/-- R6, R8: a cell holds every byte and -1. -/
theorem fitsCell_of_nineBits {p : Params} (h : p.ok = true) {v : Int} (h1 : -256 ≤ v) (h2 : v < 256) : fitsCell p v := by
  have hp : 2 ^ 8 ≤ 2 ^ (p.wCell - 1) := Nat.pow_le_pow_right (by decide) (by have := Params.nine_le_wCell h; omega)
  zify at hp
  unfold fitsCell
  omega

/-- R25, R26: a value between the bounds fits a cell. -/
theorem fitsCell_of_between {p : Params} {lo hi v : Int} (hlo : fitsCell p lo) (hhi : fitsCell p hi) (h1 : lo ≤ v)
    (h2 : v ≤ hi) : fitsCell p v :=
  ⟨le_trans hlo.1 h1, lt_of_le_of_lt h2 hhi.2⟩

/-- R34: a value bound as the host writes it fits a cell. -/
theorem fitsCell_signedLow {p : Params} (h : p.ok = true) (word : Nat) : fitsCell p (signedLow p.wCell word) :=
  signedLow_range (by have := Params.nine_le_wCell h; omega) word

/-! ### `State.Fits` by its parts -/

theorem State.Fits.fitsIn {s : State} (h : s.Fits) : s.mem.FitsIn s.params := ⟨h.memory, h.words, h.cells, h.live⟩

/-- With the configuration as it was, only the memories are left to look at. -/
theorem State.Fits.of_sameConfig {s t : State} (h : s.Fits) (hc : s.SameConfig t) (hm : t.mem.FitsIn s.params) :
    t.Fits where
  params := by rw [hc.params]; exact h.params
  memory := hm.wf
  words := by rw [hc.params]; exact hm.words
  cells := by rw [hc.params]; exact hm.cells
  live := by rw [hc.params]; exact hm.live
  valueMin := by rw [hc.params, hc.valueMin]; exact h.valueMin
  valueMax := by rw [hc.params, hc.valueMax]; exact h.valueMax
  policy := by rw [hc.policy]; exact h.policy

/-- R36: the reset values fit all legal parameters. -/
theorem State.Fits.hardReset {s : State} (hp : s.params.ok = true) (hm : s.mem.FitsIn s.params) : s.hardReset.Fits where
  params := hp
  memory := hm.wf
  words := hm.words
  cells := hm.cells
  live := hm.live
  valueMin := fitsCell_of_nineBits hp (by simp) (by simp)
  valueMax := fitsCell_of_nineBits hp (by simp) (by simp)
  policy := by simp

/-- R93, R94: what a `Read` beat stores fits a cell. -/
theorem State.Fits.tokenValue {s : State} (h : s.Fits) {tok : Token} {v : Int} (hv : s.tokenValue tok = some (some v)) :
    fitsCell s.params v := by
  cases tok with
  | byte b =>
    obtain rfl : (b.toNat : Int) = v := by simpa [State.tokenValue] using hv
    have hb := b.isLt
    exact fitsCell_of_nineBits h.params (by omega) (by omega)
  | eof =>
    obtain ⟨pol, -, hv⟩ := Option.map_eq_some_iff.1 hv
    cases pol <;> cases hv
    · exact fitsCell_of_nineBits h.params (by decide) (by decide)
    · exact h.valueMin
    · exact h.valueMax
    · exact fitsCell_of_nineBits h.params (by decide) (by decide)

/-! ### The cases of a host action -/

/-- Everything an action of the host can do. A START written in a run is `starts` too: `State.start` ignores it (R35). -/
inductive HostCase (s : State) : HostAction → State → Prop where
  /-- A START (R30, R117). -/
  | starts (value : Nat) (hv : value % 2 = 1) : HostCase s (.writeReg 0 value) s.start
  /-- A write of a configuration register outside a run (R25 to R29); the registers keep their widths. -/
  | configures (offset value : Nat) (lo hi : Int) (cells len pol : Word) (hr : s.runState ≠ .running)
      (hf : s.Fits →
        ({ s with valueMin := lo, valueMax := hi, cellCount := cells, progLen := len, policy := pol } : State).Fits) :
      HostCase s (.writeReg offset value)
        { s with valueMin := lo, valueMax := hi, cellCount := cells, progLen := len, policy := pol }
  /-- A write of an instruction word outside a run (R46). -/
  | loads (index : Nat) (w : Word) (hr : s.runState ≠ .running) (hi : index < s.params.imemDepth) :
      HostCase s (.writeImage index w) { s with mem := s.mem.setWord index w }
  /-- A reset (R116). -/
  | resets : HostCase s .reset s.hardReset
  /-- A read, an offer, an acceptance, or a write that is ignored: the block is left alone, and of the outside world what
  the executor writes is left alone too. -/
  | outside (a : HostAction) (input : List Token) (source : Source) (ready : Bool) (replies : List Nat) (draws : Nat) :
      HostCase s a { s with env := { s.env with
        input := input, source := source, ready := ready, replies := replies, draws := draws } }

/-- An action that changes nothing. -/
theorem HostCase.ignored (s : State) (a : HostAction) : HostCase s a s := .outside a _ _ _ _ _

/-- What a read answers leaves the block alone. -/
theorem HostCase.answers (a : HostAction) {s : State} {r : Nat × State} (h : r.2 = s ∨ r.2 = s.draw.2) :
    HostCase s a (State.reply r) := by
  obtain ⟨n, u⟩ := r
  obtain rfl | rfl := h <;> exact .outside a _ _ _ _ _

theorem readReg_state (s : State) (offset : Nat) : (s.readReg offset).2 = s ∨ (s.readReg offset).2 = s.draw.2 := by
  unfold State.readReg State.drawBoundary
  by_cases hr : s.runState = .running <;> split <;> simp [hr]

theorem readImage_state (s : State) (index : Nat) : (s.readImage index).2 = s ∨ (s.readImage index).2 = s.draw.2 := by
  unfold State.readImage State.drawWord
  split
  · split <;> simp
  · simp

theorem readTape_state (s : State) (index : Nat) : (s.readTape index).2 = s ∨ (s.readTape index).2 = s.draw.2 := by
  unfold State.readTape State.drawCell
  split
  · split
    · simp
    · split <;> simp
  · simp

/-- R29: what a write of `POLICY` keeps is below 2^7. -/
theorem and_policyMask_lt (w : Word) : (w &&& policyMask).toNat < 2 ^ 7 := by
  rw [BitVec.toNat_and]
  exact Nat.and_lt_two_pow _ (by decide)

/-- R34: a word cut to the width of the port is odd only where the whole word is. -/
theorem odd_of_port {value w : Nat} (h : value % 2 ^ w % 2 = 1) : value % 2 = 1 := by
  cases w with
  | zero => simp [Nat.mod_one] at h
  | succ w => rwa [Nat.mod_mod_of_dvd _ (Dvd.intro_left _ (Nat.pow_succ 2 w).symm)] at h

theorem writeReg_cases (s : State) (offset value : Nat) :
    HostCase s (.writeReg offset value) (s.writeReg offset value) := by
  unfold State.writeReg
  split
  · exact .ignored s _
  · rename_i hr
    unfold State.writeIdle
    split
    · split
      · exact .starts value (odd_of_port ‹_›)
      · exact .ignored s _
    · exact .configures _ value _ _ _ _ _ hr fun h => { h with valueMin := fitsCell_signedLow h.params _ }
    · exact .configures _ value _ _ _ _ _ hr fun h => { h with valueMax := fitsCell_signedLow h.params _ }
    · exact .configures _ value _ _ _ _ _ hr fun h => { h with }
    · exact .configures _ value _ _ _ _ _ hr fun h => { h with }
    · exact .configures _ value _ _ _ _ _ hr fun h => { h with policy := and_policyMask_lt _ }
    · exact .ignored s _

theorem writeImage_cases (s : State) (index : Nat) (w : Word) :
    HostCase s (.writeImage index w) (s.writeImage index w) := by
  unfold State.writeImage
  split
  · exact .ignored s _
  · split
    · exact .loads index w ‹_› ‹_›
    · exact .ignored s _

/-- The inversion of a host action. -/
theorem hostAct_cases (s : State) (a : HostAction) : HostCase s a (hostAct a s) := by
  cases a with
  | writeReg offset value => exact writeReg_cases s offset value
  | readReg offset => exact .answers _ (readReg_state s offset)
  | writeImage index w => exact writeImage_cases s index w
  | readImage index => exact .answers _ (readImage_state s index)
  | readTape index => exact .answers _ (readTape_state s index)
  | offer t => exact .outside _ _ _ _ _ _
  | supply source => exact .outside _ _ _ _ _ _
  | accept ready => exact .outside _ _ _ _ _ _
  | reset => exact .resets

/-! ### Who writes what -/

/-- R6: no host action changes the parameters. -/
theorem hostAct_params (s : State) (a : HostAction) : (hostAct a s).params = s.params := by
  have h := hostAct_cases s a
  generalize hostAct a s = t at h
  cases h with
  | starts => exact (sameConfig_start s).params
  | configures | loads | resets | outside => rfl

/-- R6: no step changes the parameters. -/
theorem step_params {s t : State} (h : step s = .next t) : t.params = s.params := by
  obtain ⟨rest, -, h⟩ | ⟨a, rest, -, rfl⟩ := step_next h
  · exact (executorTurn_sameConfig h).1.params
  · exact hostAct_params _ a

/-- R110: an action of the host that is neither a START nor a reset writes nothing the executor writes. -/
theorem hostAct_frame (s : State) {a : HostAction} (hs : a.startsRun = false) (hr : a ≠ .reset) :
    s.SameRecord (hostAct a s) ∧ (hostAct a s).pc = s.pc ∧ (hostAct a s).ptr = s.ptr ∧ (hostAct a s).rep = s.rep ∧
    (hostAct a s).mem.tapeLive = s.mem.tapeLive ∧ ∀ b, (hostAct a s).mem.rawCell b = s.mem.rawCell b := by
  have h := hostAct_cases s a
  generalize hostAct a s = t at h
  cases h with
  | starts value hv => simp [HostAction.startsRun, hv] at hs
  | resets => exact absurd rfl hr
  | configures | loads | outside => exact ⟨⟨rfl, rfl, rfl, rfl⟩, rfl, rfl, rfl, rfl, fun _ => rfl⟩

/-- Settles O53: the cases of the executor's turn and of a host action. -/
theorem executorAndHostWriteApart : Obligations.ExecutorAndHostWriteApart := by
  refine ⟨fun s t h => ?_, fun s a _ hs hr => hostAct_frame s hs hr, fun s t h => step_params h⟩
  obtain ⟨hc, hm⟩ := executorTurn_sameConfig h
  exact ⟨hc, fun b => by rw [Memory.word?, hm, Memory.word?]⟩

/-! ### The invariant outside a run -/

/-- Outside a run the invariant speaks of the widths, `REP` and the fault record alone. -/
theorem State.Inv.of_not_running {s : State} (hr : s.runState ≠ .running) (hf : s.Fits) (hrep : s.rep = 0#29)
    (hrec : s.RecordOk) : s.Inv :=
  ⟨hf, fun h => absurd h hr, .inl hrep, fun _ => hrep, hrec⟩

/-- The fault record is judged by its own fields. -/
theorem State.RecordOk.of_same {s t : State} (h : s.RecordOk) (hs : s.SameRecord t) : t.RecordOk := by
  obtain ⟨h1, h2, h3, h4⟩ := hs
  exact ⟨by rw [h1, h2, h3, h4]; exact h.clear, by rw [h1, h2]; exact h.code⟩

/-- R36: reset gives the invariant, whatever the memories hold within their depths. -/
theorem State.Inv.hardReset {s : State} (hp : s.params.ok = true) (hm : s.mem.FitsIn s.params) : s.hardReset.Inv :=
  .of_not_running (by simp) (.hardReset hp hm) rfl ⟨fun _ => ⟨rfl, rfl, rfl⟩, fun h => by simp at h⟩

/-- The reset state of all legal parameters meets the invariant, whatever the host will do. -/
theorem State.Inv.reset {p : Params} (env : Env) (hp : p.ok = true) :
    ({ State.reset with params := p, env := env } : State).Inv :=
  State.Inv.hardReset (s := { State.reset with params := p, env := env }) hp (Memory.fitsIn_powerOn p)

/-- Settles O49: a reset machine has empty memories, and its register values fit all legal parameters. -/
theorem invariantHoldsAtReset : Obligations.InvariantHoldsAtReset :=
  ⟨State.Inv.reset Env.initial (by decide), fun _ env hp => State.Inv.reset env hp⟩

/-! ### The invariant and the host -/

/-- The invariant reads of the outside world the record of the run alone. -/
theorem State.Inv.withEnv {s : State} (h : s.Inv) {e : Env} (hh : e.held = s.env.held)
    (hc : e.runCells = s.env.runCells) : ({ s with env := e } : State).Inv where
  fits := h.fits.of_sameConfig ⟨rfl, rfl, rfl, rfl, rfl, rfl⟩ h.fits.fitsIn
  run hr :=
    have hrun := h.run hr
    ⟨(configCause_congr ⟨rfl, rfl, rfl, rfl, rfl, rfl⟩).trans hrun.checks, hrun.live, hc.trans hrun.runCells, hrun.ptr,
      hrun.pc, hh ▸ hrun.held⟩
  rep := h.rep
  idle := h.idle
  record := h.record.of_same ⟨rfl, rfl, rfl, rfl⟩

/-- R117: START keeps the invariant. -/
theorem State.Inv.start {s : State} (h : s.Inv) : s.start.Inv := by
  obtain ⟨-, he⟩ | ⟨-, hc, he⟩ | ⟨-, -, he⟩ := start_cases s
  · rw [he]; exact h
  · have hs := sameConfig_start s
    rw [he] at hs ⊢
    obtain ⟨-, -, -, -, hpos, hdepth, -⟩ := configCause_eq_zero hc
    exact
      { fits := h.fits.of_sameConfig hs (h.fits.fitsIn.clearCells hdepth)
        run := fun _ => ⟨(configCause_congr hs).trans hc, rfl, rfl, hpos, Nat.zero_le _, List.mem_singleton_self _⟩
        rep := .inl rfl
        idle := fun _ => rfl
        record := ⟨fun _ => ⟨rfl, rfl, rfl⟩, nofun⟩ }
  · have hs := sameConfig_start s
    rw [he] at hs ⊢
    exact .of_not_running nofun (h.fits.of_sameConfig hs h.fits.fitsIn) rfl
      ⟨fun hf => absurd rfl hf, fun _ => ⟨.configuration, rfl⟩⟩

/-- Every action of the host keeps the invariant. -/
theorem State.Inv.hostAct {s : State} (h : s.Inv) (a : HostAction) : (hostAct a s).Inv := by
  have hc := hostAct_cases s a
  generalize Machine.hostAct a s = t at hc
  cases hc with
  | starts => exact h.start
  | configures offset value lo hi cells len pol hr hf =>
    exact .of_not_running hr (hf h.fits) (h.idle hr) (h.record.of_same ⟨rfl, rfl, rfl, rfl⟩)
  | loads index w hr hi =>
    exact .of_not_running hr (h.fits.of_sameConfig ⟨rfl, rfl, rfl, rfl, rfl, rfl⟩ (h.fits.fitsIn.setWord hi w)) (h.idle hr)
      (h.record.of_same ⟨rfl, rfl, rfl, rfl⟩)
  | resets => exact .hardReset h.fits.params h.fits.fitsIn
  | outside => exact h.withEnv rfl rfl

/-! ### The invariant inside an instruction

Between the first and the last operation of an instruction `REP` may not yet be right and the new boundary is not yet
recorded; `State.MidRun` is what holds all the while. -/

/-- What a state keeps while an instruction that raises no fault is carried out: the invariant of a run in progress but for
`REP` and the recorded boundaries. -/
structure State.MidRun (s : State) : Prop where
  running : s.runState = .running
  fits : s.Fits
  checks : s.configCause = 0
  live : s.mem.tapeLive = s.cellCount.toNat
  runCells : s.env.runCells = s.cellCount.toNat
  ptr : s.ptr.toNat < s.cellCount.toNat
  pc : s.pc.toNat ≤ s.progLen.toNat
  record : s.RecordOk

theorem State.Inv.midRun {s : State} (h : s.Inv) (hr : s.runState = .running) : s.MidRun :=
  have hrun := h.run hr
  ⟨hr, h.fits, hrun.checks, hrun.live, hrun.runCells, hrun.ptr, hrun.pc, h.record⟩

/-- The one frame rule of `MidRun`: an operation that leaves the configuration and the fault record alone owes the memories,
`PTR` and `PC`. -/
theorem State.MidRun.of_frame {s t : State} (h : s.MidRun) (hc : s.SameConfig t) (hr : s.SameRecord t)
    (hm : t.mem.FitsIn s.params) (hl : t.mem.tapeLive = s.mem.tapeLive) (he : t.env.runCells = s.env.runCells)
    (hptr : t.ptr.toNat < s.cellCount.toNat) (hpc : t.pc.toNat ≤ s.progLen.toNat) : t.MidRun where
  running := hr.runState.trans h.running
  fits := h.fits.of_sameConfig hc hm
  checks := (configCause_congr hc).trans h.checks
  live := by rw [hl, hc.cellCount, h.live]
  runCells := by rw [he, hc.cellCount, h.runCells]
  ptr := by rw [hc.cellCount]; exact hptr
  pc := by rw [hc.progLen]; exact hpc
  record := h.record.of_same hr

theorem State.MidRun.withEnv {s : State} (h : s.MidRun) {e : Env} (he : e.runCells = s.env.runCells) :
    ({ s with env := e } : State).MidRun :=
  h.of_frame ⟨rfl, rfl, rfl, rfl, rfl, rfl⟩ ⟨rfl, rfl, rfl, rfl⟩ h.fits.fitsIn rfl he h.ptr h.pc

theorem State.MidRun.setCell {s : State} (h : s.MidRun) {v : Int} (hv : fitsCell s.params v) : (s.setCell v).MidRun :=
  have hptr : s.ptr.toNat < s.params.tapeDepth := by have := h.live ▸ h.fits.live; have := h.ptr; omega
  h.of_frame ⟨rfl, rfl, rfl, rfl, rfl, rfl⟩ ⟨rfl, rfl, rfl, rfl⟩ (h.fits.fitsIn.setCell hptr hv) rfl rfl h.ptr h.pc

theorem State.MidRun.setPtr {s : State} (h : s.MidRun) {r : Int} (h0 : 0 ≤ r) (h1 : r ≤ s.cellCount.toNat - 1) :
    (s.setPtr r).MidRun :=
  have hr : ((s.setPtr r).ptr.toNat : Int) = r := State.setPtr_toNat h0 h1 s.cellCount.isLt
  h.of_frame ⟨rfl, rfl, rfl, rfl, rfl, rfl⟩ ⟨rfl, rfl, rfl, rfl⟩ h.fits.fitsIn rfl rfl (by omega) h.pc

/-- R74: the sequential advance from inside the image stays inside it or ends just past it. -/
theorem State.MidRun.advance {s : State} (h : s.MidRun) (hpc : s.pc.toNat < s.progLen.toNat) : s.advance.MidRun :=
  h.of_frame ⟨rfl, rfl, rfl, rfl, rfl, rfl⟩ ⟨rfl, rfl, rfl, rfl⟩ h.fits.fitsIn rfl rfl h.ptr
    (by simp only [State.advance_pc, BitVec.toNat_add, BitVec.toNat_ofNat]; omega)

theorem State.MidRun.jumpPast {s : State} (h : s.MidRun) {t : Opnd} (ht : t.toNat < s.progLen.toNat) :
    (s.jumpPast t).MidRun :=
  h.of_frame ⟨rfl, rfl, rfl, rfl, rfl, rfl⟩ ⟨rfl, rfl, rfl, rfl⟩ h.fits.fitsIn rfl rfl h.ptr
    (by rw [State.jumpPast, jumpPast_toNat]; exact ht)

theorem State.MidRun.setRep {s : State} (h : s.MidRun) (r : BitVec 29) : ({ s with rep := r } : State).MidRun :=
  h.of_frame ⟨rfl, rfl, rfl, rfl, rfl, rfl⟩ ⟨rfl, rfl, rfl, rfl⟩ h.fits.fitsIn rfl rfl h.ptr h.pc

theorem State.MidRun.beatEnd {s : State} (h : s.MidRun) (n : Opnd) (hpc : s.pc.toNat < s.progLen.toNat) :
    (s.beatEnd n).MidRun := by
  unfold State.beatEnd
  split
  · exact (h.setRep 0#29).advance hpc
  · exact h.setRep _

/-! ### The beat counter -/

/-- R92: where `REP` is not 0, the word at `PC` is the `Read` or `Write` it counts the beats of. -/
theorem State.RepOk.of_word {s : State} (h : s.RepOk) {w : Word} (hw : s.mem.word? s.pc.toNat = some w) :
    s.rep = 0#29 ∨ ∃ n, (decode w = .read n ∨ decode w = .write n) ∧ s.rep.toNat < n.toNat := by
  obtain h | ⟨-, w', n, hw', hd, hn⟩ := h
  · exact .inl h
  · obtain rfl : w = w' := Option.some_inj.1 (hw.symm.trans hw')
    exact .inr ⟨n, hd, hn⟩

/-- R22: outside `Read` and `Write` the counter is 0. -/
theorem State.RepOk.eq_zero {s : State} (h : s.RepOk) {w : Word} (hw : s.mem.word? s.pc.toNat = some w)
    (hd : ∀ n, decode w ≠ .read n ∧ decode w ≠ .write n) : s.rep = 0#29 := by
  obtain h | ⟨n, h | h, -⟩ := h.of_word hw
  · exact h
  · exact absurd h (hd n).1
  · exact absurd h (hd n).2

/-- R92: a beat of an instruction with a positive count finds fewer beats done than the count. -/
theorem State.RepOk.lt_count {s : State} (h : s.RepOk) {w : Word} {n : Opnd} (hw : s.mem.word? s.pc.toNat = some w)
    (hd : decode w = .read n ∨ decode w = .write n) (hn : n ≠ 0#29) : s.rep.toNat < n.toNat := by
  obtain h | ⟨m, hm, hlt⟩ := h.of_word hw
  · rw [h]
    exact Nat.pos_of_ne_zero fun h0 => hn (BitVec.eq_of_toNat_eq h0)
  · obtain rfl : m = n := by
      obtain hd | hd := hd <;> obtain hm | hm := hm <;> rw [hd] at hm <;> cases hm <;> rfl
    exact hlt

/-- R61: an illegal instruction has no beat done. -/
theorem State.RepOk.eq_zero_of_illegal {s : State} (h : s.RepOk) {w : Word} (hw : s.mem.word? s.pc.toNat = some w)
    (hl : s.legal (decode w) = false) : s.rep = 0#29 := by
  obtain h | ⟨n, hd, hlt⟩ := h.of_word hw
  · exact h
  · have hn : n = 0#29 := by
      obtain hd | hd := hd <;> rw [hd] at hl <;> simpa [State.legal, Instr.legalAt] using hl
    subst hn
    exact absurd hlt (Nat.not_lt_zero _)

/-- R92: the end of a beat counts it, or clears the counter after the last. -/
theorem State.repOk_beatEnd {s : State} {w : Word} {n : Opnd} (hpc : s.pc.toNat < s.progLen.toNat)
    (hw : s.mem.word? s.pc.toNat = some w) (hd : decode w = .read n ∨ decode w = .write n)
    (hlt : s.rep.toNat < n.toNat) : (s.beatEnd n).RepOk := by
  by_cases hlast : s.rep.toNat + 1 = n.toNat
  · exact .inl (by simp [hlast])
  · refine .inr ⟨by simpa [hlast] using hpc, w, n, by simpa [hlast] using hw, hd, ?_⟩
    have hn := n.isLt
    simp only [State.beatEnd_rep, hlast, if_false, BitVec.toNat_add, BitVec.toNat_ofNat]
    omega

/-! ### The invariant and the executor -/

/-- The boundary recorded, a state in a run meets the invariant again. -/
theorem State.MidRun.inv_noteBoundary {s : State} (h : s.MidRun) (hrep : s.RepOk) : s.noteBoundary.Inv where
  fits := h.fits.of_sameConfig (sameConfig_noteBoundary s) (by rw [State.noteBoundary_mem]; exact h.fits.fitsIn)
  run _ :=
    { checks := (configCause_congr (sameConfig_noteBoundary s)).trans h.checks
      live := by simpa using h.live
      runCells := by rw [State.noteBoundary_env]; simpa using h.runCells
      ptr := by simpa using h.ptr
      pc := by simpa using h.pc
      held := by simpa using s.mem_held_noteBoundary.1 }
  rep := by simpa [State.RepOk] using hrep
  idle hn := absurd (by simpa using h.running) hn
  record := h.record.of_same ⟨by simp, by simp, by simp, by simp⟩

/-- R104: a fault taken with no beat done keeps the invariant. -/
theorem State.MidRun.inv_raise {s : State} (h : s.MidRun) (hrep : s.rep = 0#29) (code : FaultCode) (info : Word) :
    (s.raise code info).noteBoundary.Inv := by
  refine .of_not_running (by simp) ?_ (by simpa using hrep) ?_
  · have hc : s.SameConfig (s.raise code info) := ⟨rfl, rfl, rfl, rfl, rfl, rfl⟩
    exact h.fits.of_sameConfig (hc.trans (sameConfig_noteBoundary _)) (by simpa using h.fits.fitsIn)
  · exact ⟨fun hn => absurd (by simp) hn, fun _ => ⟨code, by simp⟩⟩

/-- Every instruction keeps the invariant, its boundary recorded. -/
theorem State.Inv.exec {s t : State} {w : Word} (h : s.Inv) (hr : s.runState = .running)
    (hpc : s.pc.toNat < s.progLen.toNat) (hw : s.mem.word? s.pc.toNat = some w) (ht : exec (decode w) s = .next t) :
    t.noteBoundary.Inv := by
  have hmid := h.midRun hr
  obtain ⟨-, -, -, hle, hpos, -, -⟩ := configCause_eq_zero hmid.checks
  have hzero := h.rep.eq_zero hw
  have hx := exec_cases ht
  generalize hi : decode w = i at hx
  cases hx with
  | illegal _ hl => exact hmid.inv_raise (h.rep.eq_zero_of_illegal hw (hi ▸ hl)) _ _
  | valueStored dir n v r hl hv hres =>
    obtain ⟨hlo, hhi⟩ := applyPolicy_ok_mem hle hres
    have hfit := fitsCell_of_between h.fits.valueMin h.fits.valueMax hlo hhi
    exact ((hmid.setCell hfit).advance hpc).inv_noteBoundary (.inl (hzero (by cases dir <;> simp [hi, valueInstr])))
  | valueFault dir => exact hmid.inv_raise (hzero (by cases dir <;> simp [hi, valueInstr])) _ _
  | pointerMoved dir n r hl hres =>
    obtain ⟨h0, h1⟩ := applyPolicy_ok_mem (by omega) hres
    exact ((hmid.setPtr h0 h1).advance hpc).inv_noteBoundary (.inl (hzero (by cases dir <;> simp [hi, pointerInstr])))
  | pointerFault dir => exact hmid.inv_raise (hzero (by cases dir <;> simp [hi, pointerInstr])) _ _
  | readStall | writeStall => exact hmid.inv_noteBoundary h.rep
  | readKept n tok s' hl hs hv =>
    obtain ⟨e, rfl, hcells⟩ := takeToken_env hs
    have hlt := h.rep.lt_count hw (.inl hi) (bne_iff_ne.1 hl)
    exact ((hmid.withEnv hcells).beatEnd n hpc).inv_noteBoundary (State.repOk_beatEnd hpc hw (.inl hi) hlt)
  | readStored n tok s' v hl hs hv =>
    obtain ⟨e, rfl, hcells⟩ := takeToken_env hs
    have hlt := h.rep.lt_count hw (.inl hi) (bne_iff_ne.1 hl)
    have htaken := hmid.withEnv hcells
    have hstored := htaken.setCell (htaken.fits.tokenValue hv)
    exact (hstored.beatEnd n hpc).inv_noteBoundary (State.repOk_beatEnd hpc hw (.inl hi) hlt)
  | writeBeat n v hl =>
    have hemit : (s.emit (low8 v)).MidRun := hmid.withEnv rfl
    have hlt := h.rep.lt_count hw (.inr hi) (bne_iff_ne.1 hl)
    exact (hemit.beatEnd n hpc).inv_noteBoundary (State.repOk_beatEnd hpc hw (.inr hi) hlt)
  | openSkips t hl =>
    obtain ⟨-, htarget⟩ : s.pc.toNat < t.toNat ∧ t.toNat < s.progLen.toNat := by
      simpa [State.legal, Instr.legalAt] using hl
    exact (hmid.jumpPast htarget).inv_noteBoundary (.inl (hzero (by simp [hi])))
  | openEnters | closeLeaves => exact (hmid.advance hpc).inv_noteBoundary (.inl (hzero (by simp [hi])))
  | closeRepeats t v hl =>
    have htarget : t.toNat < s.pc.toNat := by simpa [State.legal, Instr.legalAt] using hl
    exact (hmid.jumpPast (htarget.trans hpc)).inv_noteBoundary (.inl (hzero (by simp [hi])))

/-- R75: past the last instruction no beat is counted. -/
theorem State.RepOk.eq_zero_of_end {s : State} (h : s.RepOk) (hpc : s.progLen.toNat ≤ s.pc.toNat) : s.rep = 0#29 := by
  obtain h | ⟨hlt, -⟩ := h
  · exact h
  · exact absurd hlt (Nat.not_lt.2 hpc)

/-- R75: the normal end keeps the invariant. -/
theorem State.Inv.halt {s : State} (h : s.Inv) (hr : s.runState = .running) (hpc : s.progLen.toNat ≤ s.pc.toNat) :
    s.halt.Inv :=
  .of_not_running (by simp) (h.fits.of_sameConfig ⟨rfl, rfl, rfl, rfl, rfl, rfl⟩ h.fits.fitsIn) (h.rep.eq_zero_of_end hpc)
    ⟨fun _ => h.record.clear (by simp [hr]), fun hf => by simp at hf⟩

/-- The executor's turn keeps the invariant. -/
theorem State.Inv.executorTurn {s t : State} (h : s.Inv) (ht : executorTurn s = .next t) : t.Inv := by
  obtain ⟨-, rfl⟩ | ⟨hr, hpc, rfl⟩ | ⟨hr, hpc, w, u, hw, hu, rfl⟩ := executorTurn_next ht
  · exact h
  · exact h.halt hr hpc
  · exact h.exec hr hpc hw hu

/-- Every step keeps the invariant. -/
theorem State.Inv.step {s t : State} (h : s.Inv) (ht : step s = .next t) : t.Inv := by
  obtain ⟨rest, -, ht⟩ | ⟨a, rest, -, rfl⟩ := step_next ht
  · exact (h.withEnv rfl rfl : (s.withTurns rest).Inv).executorTurn ht
  · exact (h.withEnv rfl rfl : (s.withTurns rest).Inv).hostAct a

/-- Settles O48: a turn is the executor's or the host's, and each keeps the invariant by the rules of its operations. -/
theorem everyStepKeepsTheInvariant : Obligations.EveryStepKeepsTheInvariant :=
  fun _ _ h ht => h.step ht

/-! ### A value or a pointer that the policy function answers is stored -/

theorem exec_value_stores {s : State} {dir : Dir} {n : Opnd} {v r : Int} (hn : n ≠ 0#29) (hv : s.cell? = some v)
    (hr : applyPolicy (candidate dir v n) s.valueMin s.valueMax s.valuePolicy dir = .ok r) :
    exec (valueInstr dir n) s = .next (s.setCell r).advance := by
  rw [exec_value hn]
  simp only [valueStep, hv, hr]

theorem exec_pointer_moves {s : State} {dir : Dir} {n : Opnd} {r : Int} (hn : n ≠ 0#29)
    (hr : applyPolicy (candidate dir s.ptr.toNat n) 0 (s.cellCount.toNat - 1) s.pointerPolicy dir = .ok r) :
    exec (pointerInstr dir n) s = .next (s.setPtr r).advance := by
  rw [exec_pointer hn]
  simp only [pointerStep, hr]

/-- R81 on the pointer path: wrapping into `[0, k − 1]` is the remainder by `k`. -/
theorem wrapped_zero (cand k : Int) : wrapped cand 0 (k - 1) = cand % k := by
  simp [wrapped]

/-- Settles O15: the policy function answers the wrapped candidate, and the instruction stores it. -/
theorem wrapPolicyStoresTheCongruentValue : Obligations.WrapPolicyStoresTheCongruentValue := by
  refine ⟨fun s dir n v hn hv hpol hle hout => ?_, fun s dir n hn hpol hpos hout => ?_⟩
  · have hwrap : s.valuePolicy = some .wrap := by simp [State.valuePolicy_eq, hpol]
    obtain ⟨hlo, hhi⟩ := wrapped_mem (candidate dir v n) hle
    exact ⟨_, _, exec_value_stores hn hv (hwrap ▸ applyPolicy_wrap hout), State.cell?_setCell hv, valueFrame s _, rfl,
      hlo, hhi, wrapped_modEq _ _ _⟩
  · have hwrap : s.pointerPolicy = some .wrap := by simp [State.pointerPolicy_eq, hpol]
    obtain ⟨hlo, hhi⟩ := wrapped_mem (candidate dir s.ptr.toNat n) (lo := 0) (hi := s.cellCount.toNat - 1) (by omega)
    refine ⟨_, exec_pointer_moves hn (hwrap ▸ applyPolicy_wrap hout), ?_, pointerFrame s _⟩
    rw [State.advance_ptr, State.setPtr_toNat hlo hhi s.cellCount.isLt, wrapped_zero]

end Sys2Proof.Machine
end

section
/-! SUPPORT. That every instruction answers a next state under the invariant, where the pointer and the brackets go, and the
beats of `Read` and `Write` counted one by one (R92). -/

namespace Sys2Proof.Machine

/-! ### Every instruction answers a next state

The model stops only on a cell without a specified content or on a reserved policy; with neither, each meaning answers. -/

theorem applyPolicy_ne_reserved {cand lo hi : Int} {pol : Option Policy} {dir : Dir} (h : pol ≠ none) :
    applyPolicy cand lo hi pol dir ≠ .reserved := by
  obtain ⟨-, -, e⟩ | ⟨-, ⟨-, e⟩ | ⟨-, e⟩ | ⟨-, e⟩ | ⟨hn, -⟩⟩ := applyPolicy_cases cand lo hi pol dir
  · simp [e]
  · simp [e]
  · simp [e]
  · simp [e]
  · exact absurd hn h

theorem guardLegal_answers {i : Instr} {s : State} {run : Host.Outcome State Fault Refusal} (h : ∃ t, run = .next t) :
    ∃ t, guardLegal i s run = .next t := by
  cases hl : s.legal i with
  | false => exact ⟨_, guardLegal_of_illegal hl run⟩
  | true => rwa [guardLegal_of_legal hl]

theorem valueStep_answers (i : Instr) (dir : Dir) (n : Opnd) {s : State} {v : Int} (hv : s.cell? = some v)
    (hp : s.valuePolicy ≠ none) : ∃ t, valueStep i dir n s = .next t := by
  simp only [valueStep, hv]
  split
  · exact ⟨_, rfl⟩
  · exact ⟨_, rfl⟩
  · exact absurd ‹_› (applyPolicy_ne_reserved hp)

theorem pointerStep_answers (i : Instr) (dir : Dir) (n : Opnd) {s : State} (hp : s.pointerPolicy ≠ none) :
    ∃ t, pointerStep i dir n s = .next t := by
  unfold pointerStep
  split
  · exact ⟨_, rfl⟩
  · exact ⟨_, rfl⟩
  · exact absurd ‹_› (applyPolicy_ne_reserved hp)

theorem bracketStep_answers (taken : Int → Bool) (t : Opnd) {s : State} {v : Int} (hv : s.cell? = some v) :
    ∃ u, bracketStep taken t s = .next u := by
  simp only [bracketStep, hv]
  split
  · exact ⟨_, rfl⟩
  · exact ⟨_, rfl⟩

theorem writeBeat_ready (n : Opnd) {s : State} {v : Int} (hv : s.cell? = some v) (hr : s.env.ready = true) :
    writeBeat n s = .next ((s.emit (low8 v)).beatEnd n) := by
  simp only [writeBeat, hv, hr, if_true]

theorem writeBeat_answers (n : Opnd) {s : State} {v : Int} (hv : s.cell? = some v) : ∃ t, writeBeat n s = .next t := by
  cases hr : s.env.ready with
  | false => exact ⟨s, by simp [writeBeat, hv, hr]⟩
  | true => exact ⟨_, writeBeat_ready n hv hr⟩

@[simp] theorem State.cell?_beatEnd (s : State) (n : Opnd) : (s.beatEnd n).cell? = s.cell? := by
  simp [State.cell?]

/-- R93: the store of a beat ends the beat of a state that differs in the current cell alone. -/
theorem storeBeat_answers (n : Opnd) {s : State} {v : Int} (o : Option Int) (hv : s.cell? = some v) :
    ∃ u, storeBeat n s o = .next (u.beatEnd n) ∧ u.cell? = some (o.getD v) ∧ s.SameMemoryBut s.ptr.toNat u ∧
      u = { s with mem := u.mem } := by
  cases o with
  | none => exact ⟨s, rfl, hv, ⟨fun _ => rfl, rfl, fun _ _ => rfl⟩, rfl⟩
  | some r =>
    have hlive := ((Memory.cell?_eq_some _).1 hv).1
    obtain ⟨hwords, hlen, hcells⟩ := (valueFrame s r).memory
    exact ⟨s.setCell r, by simp [storeBeat, hlive], State.cell?_setCell hv, ⟨hwords, hlen, hcells⟩, rfl⟩

theorem readBeat_takes {n : Opnd} {s s' : State} {tok : Token} {o : Option Int} (hs : s.takeToken = some (tok, s'))
    (ho : s'.tokenValue tok = some o) : readBeat n s = storeBeat n s' o := by
  simp only [readBeat, hs, ho]

/-- R94: under an assigned EOF policy every token has its value. -/
theorem tokenValue_answers {s : State} (h : s.eofPolicy ≠ none) (tok : Token) : ∃ o, s.tokenValue tok = some o := by
  cases tok with
  | byte b => exact ⟨_, rfl⟩
  | eof =>
    obtain ⟨pol, hpol⟩ := Option.ne_none_iff_exists'.1 h
    exact ⟨eofValue s.valueMin s.valueMax pol, by simp [State.tokenValue, hpol]⟩

theorem readBeat_answers (n : Opnd) {s : State} {v : Int} (hv : s.cell? = some v) (he : s.eofPolicy ≠ none) :
    ∃ t, readBeat n s = .next t := by
  cases hs : s.takeToken with
  | none => exact ⟨s, by simp only [readBeat, hs]⟩
  | some p =>
    obtain ⟨tok, s'⟩ := p
    obtain ⟨e, rfl, -⟩ := takeToken_env hs
    obtain ⟨o, ho⟩ := tokenValue_answers (s := { s with env := e }) he tok
    obtain ⟨u, hu, -⟩ := storeBeat_answers n o (s := { s with env := e }) hv
    exact ⟨_, (readBeat_takes hs ho).trans hu⟩

/-- R39, R78, R94: with a specified current cell and assigned policies, every instruction answers a next state. -/
theorem exec_answers (i : Instr) {s : State} {v : Int} (hv : s.cell? = some v) (hvp : s.valuePolicy ≠ none)
    (hpp : s.pointerPolicy ≠ none) (hep : s.eofPolicy ≠ none) : ∃ t, exec i s = .next t := by
  cases i with
  | incValue n => exact guardLegal_answers (valueStep_answers _ _ n hv hvp)
  | decValue n => exact guardLegal_answers (valueStep_answers _ _ n hv hvp)
  | incPointer n => exact guardLegal_answers (pointerStep_answers _ _ n hpp)
  | decPointer n => exact guardLegal_answers (pointerStep_answers _ _ n hpp)
  | read n => exact guardLegal_answers (readBeat_answers n hv hep)
  | write n => exact guardLegal_answers (writeBeat_answers n hv)
  | loopOpen t => exact guardLegal_answers (bracketStep_answers _ t hv)
  | loopClose t => exact guardLegal_answers (bracketStep_answers _ t hv)

/-- In a run that meets the invariant the current cell has a specified content (R19, R39). -/
theorem State.RunOk.cell?_eq {s : State} (h : s.RunOk) : s.cell? = some (s.mem.rawCell s.ptr.toNat) :=
  (Memory.cell?_eq_some _).2 ⟨h.live ▸ h.ptr, rfl⟩

/-- The executor's turn answers a next state. -/
theorem executorTurn_answers {s : State} (h : s.Inv) (hw : s.NextWordLoaded) : ∃ t, executorTurn s = .next t := by
  cases hr : s.runState with
  | idle | done | fault => exact ⟨s, by simp only [executorTurn, hr]⟩
  | running =>
    simp only [executorTurn, hr, runStep]
    by_cases hpc : s.progLen.toNat ≤ s.pc.toNat
    · exact ⟨s.halt, if_pos hpc⟩
    · have hrun := h.run hr
      obtain ⟨w, hfetch⟩ := Option.isSome_iff_exists.1 (hw hr (by omega))
      obtain ⟨hvp, hpp, hep, -⟩ := configCause_eq_zero hrun.checks
      obtain ⟨t, ht⟩ := exec_answers (decode w) hrun.cell?_eq hvp hpp hep
      exact ⟨t.noteBoundary, by simp only [hpc, if_false, hfetch, ht, onNext]⟩

/-- Settles O51: an action of the host always answers, and the executor's turn answers under the invariant. -/
theorem theMachineNeverStops : Obligations.TheMachineNeverStops := by
  intro s h hw
  unfold step takeTurn
  split
  · exact executorTurn_answers h hw
  · exact executorTurn_answers (s := s.withTurns _) (h.withEnv rfl rfl) hw
  · exact ⟨_, rfl⟩

/-! ### Pointers and brackets -/

/-- A pointer instruction checks its legality and runs its body, whatever its direction (R89, R90). -/
theorem exec_pointerInstr (dir : Dir) (n : Opnd) (s : State) :
    exec (pointerInstr dir n) s = guardLegal (pointerInstr dir n) s (pointerStep (pointerInstr dir n) dir n s) := by
  cases dir <;> rfl

/-- Everything a pointer instruction can do: a fault, or a pointer in the range stored. -/
theorem exec_pointer_next {s t : State} {dir : Dir} {n : Opnd} (hpos : 0 < s.cellCount.toNat)
    (h : exec (pointerInstr dir n) s = .next t) :
    (∃ code info, t = s.raise code info) ∨ ∃ r : Int, 0 ≤ r ∧ r ≤ s.cellCount.toNat - 1 ∧ t = (s.setPtr r).advance := by
  rw [exec_pointerInstr] at h
  obtain ⟨-, rfl⟩ | ⟨-, h⟩ := guardLegal_next h
  · exact .inl ⟨_, _, rfl⟩
  · obtain ⟨r, hr, rfl⟩ | ⟨-, rfl⟩ := pointerStep_next h
    · obtain ⟨h0, h1⟩ := applyPolicy_ok_mem (by omega) hr
      exact .inr ⟨r, h0, h1, rfl⟩
    · exact .inl ⟨_, _, rfl⟩

/-- Settles O18: a pointer instruction faults, which leaves `PTR`, or stores a result that lies in the range. -/
theorem pointerStaysInRange : Obligations.PointerStaysInRange := by
  intro s dir n hptr hpol
  have hpp : s.pointerPolicy ≠ none := mt s.pointerPolicy_eq_none.1 hpol
  obtain ⟨t, ht⟩ : ∃ t, exec (pointerInstr dir n) s = .next t := by
    rw [exec_pointerInstr]
    exact guardLegal_answers (pointerStep_answers _ dir n hpp)
  refine ⟨t, ht, ?_⟩
  obtain ⟨code, info, rfl⟩ | ⟨r, h0, h1, rfl⟩ := exec_pointer_next (by omega) ht
  · exact ⟨hptr, rfl, rfl⟩
  · have hr := State.setPtr_toNat (s := s) h0 h1 s.cellCount.isLt
    exact ⟨by rw [State.advance_ptr]; omega, rfl, rfl⟩

/-- R74: a taken bracket and one that is not lead to different indexes, unless the target is the bracket itself. -/
theorem jumpPast_pc_ne_advance {s : State} {t : Opnd} (h : s.pc.toNat ≠ t.toNat) :
    t.setWidth 32 + 1#32 ≠ s.pc + 1#32 := by
  intro he
  have ht := t.isLt
  have heq : t.setWidth 32 = s.pc := add_right_cancel he
  exact h (by rw [← heq, BitVec.toNat_setWidth, Nat.mod_eq_of_lt (by omega)])

/-- R97, R98: where a bracket that does not fault goes, by the zero test of the whole cell; a legal target is not the
bracket itself. -/
theorem bracket_pc_iff {i : Instr} {taken : Int → Bool} {t : Opnd} {s u : State} (hu : u.runState = .running)
    (htarget : s.legal i = true → s.pc.toNat ≠ t.toNat) (h : guardLegal i s (bracketStep taken t s) = .next u) :
    (u.pc = t.setWidth 32 + 1#32 ↔ ∃ v, s.cell? = some v ∧ taken v = true) ∧
    (u.pc = s.pc + 1#32 ↔ ∃ v, s.cell? = some v ∧ taken v = false) := by
  obtain ⟨-, rfl⟩ | ⟨hl, h⟩ := guardLegal_next h
  · cases hu
  · have hne := jumpPast_pc_ne_advance (htarget hl)
    obtain ⟨v, hv, ⟨htaken, rfl⟩ | ⟨htaken, rfl⟩⟩ := bracketStep_next h
    · simp [hv, htaken, hne]
    · simp [hv, htaken, hne.symm]

/-- Settles O31: a fault would end the run, so each bracket goes where its zero test says. -/
theorem loopIsLeftOnlyOnZero : Obligations.LoopIsLeftOnlyOnZero := by
  intro s u t _ hu
  refine ⟨fun h => ?_, fun h => ?_⟩
  · have htarget (hl : s.legal (.loopClose t) = true) : s.pc.toNat ≠ t.toNat := by
      have hlt : t.toNat < s.pc.toNat := by simpa [State.legal, Instr.legalAt] using hl
      exact hlt.ne'
    obtain ⟨hjump, hgo⟩ := bracket_pc_iff hu htarget h
    exact ⟨by simpa [cellIsZero] using hgo, by simpa [cellIsZero] using hjump⟩
  · have htarget (hl : s.legal (.loopOpen t) = true) : s.pc.toNat ≠ t.toNat := by
      have hlt : s.pc.toNat < t.toNat ∧ t.toNat < s.progLen.toNat := by simpa [State.legal, Instr.legalAt] using hl
      exact hlt.1.ne
    obtain ⟨hjump, hgo⟩ := bracket_pc_iff hu htarget h
    exact ⟨by simpa [cellIsZero] using hjump, by simpa [cellIsZero] using hgo⟩

/-! ### Beats in a row -/

theorem execTimes_succ {i : Instr} {k : Nat} {s t : State} (h : execTimes i k s = .next t) :
    execTimes i (k + 1) s = exec i t := by
  induction k generalizing s with
  | zero =>
    cases h
    simp only [execTimes]
    split <;> simp only [*]
  | succ k ih =>
    rw [execTimes] at h ⊢
    cases he : exec i s with
    | next u => rw [he] at h; exact ih h
    | fault r => rw [he] at h; cases h
    | refused r => rw [he] at h; cases h

/-- R92: `k` beats of an instruction with count `n` are done, since `s`, where none was. -/
structure BeatsDone (n : Opnd) (k : Nat) (s t : State) : Prop where
  inner : k < n.toNat → t.rep.toNat = k ∧ t.pc = s.pc
  last : k = n.toNat → t.rep = 0#29 ∧ t.pc = s.pc + 1#32

theorem BeatsDone.zero {n : Opnd} {s : State} (hn : n ≠ 0#29) (hrep : s.rep = 0#29) : BeatsDone n 0 s s where
  inner _ := ⟨by simp [hrep], rfl⟩
  last h := absurd (BitVec.eq_of_toNat_eq h.symm) hn

theorem BeatsDone.succ {n : Opnd} {k : Nat} {s t u : State} (h : BeatsDone n k s t) (hk : k < n.toNat)
    (hf : BeatFrame n t u) : BeatsDone n (k + 1) s u := by
  obtain ⟨hrep, hpc⟩ := h.inner hk
  refine ⟨fun hlt => ?_, fun heq => ?_⟩
  · obtain ⟨hrep', hpc'⟩ := hf.innerBeat (by omega)
    have hn := n.isLt
    refine ⟨?_, hpc'.trans hpc⟩
    rw [hrep', BitVec.toNat_add, hrep, BitVec.toNat_ofNat]
    omega
  · rw [← hpc]
    exact hf.lastBeat (by omega)

/-! ### The beats of `Write` -/

/-- R95: a beat of `Write` whose byte the host accepts. -/
theorem exec_write_emits {s : State} {n : Opnd} {v : Int} (hn : n ≠ 0#29) (hv : s.cell? = some v)
    (hr : s.env.ready = true) :
    exec (.write n) s = .next ((s.emit (low8 v)).beatEnd n) ∧ BeatFrame n s ((s.emit (low8 v)).beatEnd n) :=
  ⟨(exec_write hn).trans (writeBeat_ready n hv hr),
    beatFrame rfl rfl rfl ⟨rfl, rfl, rfl, rfl, rfl, rfl⟩ ⟨rfl, rfl, rfl, rfl⟩⟩

/-- Settles O26: by induction on the number of beats; each appends one copy of the byte. -/
theorem writeEmitsExactlyNCopies : Obligations.WriteEmitsExactlyNCopies := by
  intro s n k v hn hrep hk hv hready
  suffices h : ∃ t, execTimes (.write n) k s = .next t ∧
      t.env = { s.env with output := s.env.output ++ List.replicate k (low8 v) } ∧ t.mem = s.mem ∧ t.ptr = s.ptr ∧
      BeatsDone n k s t by
    obtain ⟨t, ht, henv, hmem, hptr, hdone⟩ := h
    exact ⟨t, ht, henv, hmem, hptr, hdone.inner, hdone.last⟩
  induction k with
  | zero => exact ⟨s, rfl, by simp, rfl, rfl, .zero hn hrep⟩
  | succ k ih =>
    obtain ⟨t, ht, henv, hmem, hptr, hdone⟩ := ih (by omega)
    have hv' : t.cell? = some v := by rwa [State.cell?, hmem, hptr]
    obtain ⟨hnext, hframe⟩ := exec_write_emits hn hv' (by rw [henv]; exact hready)
    refine ⟨_, (execTimes_succ ht).trans hnext, ?_, by simpa using hmem, by simpa using hptr, hdone.succ hk hframe⟩
    simp [henv, List.replicate_succ']

/-! ### The beats of `Read` -/

/-- R93, R94: the machine's value of a token is the one the table gives, the cell's own where it stores nothing. -/
theorem tokenValue_eq_afterToken {s : State} {tok : Token} (v : Int) (h : tok = .eof → s.epField < 5) :
    ∃ o, s.tokenValue tok = some o ∧ o.getD v = s.afterToken v tok := by
  cases tok with
  | byte b => exact ⟨_, rfl, rfl⟩
  | eof =>
    have hlt := h rfl
    have hep : s.eofPolicy = _ := s.eofPolicy_eq
    rw [show s.policy.toNat / 16 % 8 = s.epField from rfl] at hep
    simp only [State.tokenValue, State.afterToken]
    generalize s.epField = ep at hlt hep
    interval_cases ep <;> exact ⟨_, by rw [hep]; rfl, rfl⟩

/-- R40, R92, R93: one beat of `Read` that takes the token `tok`, from a cell that holds `v`. -/
structure ReadBeat (n : Opnd) (tok : Token) (v : Int) (s t : State) : Prop where
  cell : t.cell? = some (s.afterToken v tok)
  frame : BeatFrame n s t
  memory : s.SameMemoryBut s.ptr.toNat t
  input : ∀ k, t.env.token? k = s.env.token? (k + 1)
  queued : ∀ rest, s.env.input = tok :: rest → t.env.input = rest ∧ t.env.source = s.env.source
  env : t.env = { s.env with input := t.env.input, source := t.env.source, consumed := s.env.consumed + 1 }

/-- With a token on offer the beat happens. -/
theorem exec_read_beat {s : State} {n : Opnd} {tok : Token} {v : Int} (hn : n ≠ 0#29)
    (htok : s.env.token? 0 = some tok) (hv : s.cell? = some v) (hep : tok = .eof → s.epField < 5) :
    ∃ t, exec (.read n) s = .next t ∧ ReadBeat n tok v s t := by
  obtain ⟨s', hs⟩ := takeToken_isSome htok
  obtain ⟨-, hinput, hqueued, hs'⟩ := takeToken_eq_some hs
  obtain ⟨o, ho, hval⟩ := tokenValue_eq_afterToken v hep
  have ho' : s'.tokenValue tok = some o := by rw [hs']; exact ho
  have hv' : s'.cell? = some v := by rw [hs']; exact hv
  obtain ⟨u, hu, hcell, hmem, hframe⟩ := storeBeat_answers n o hv'
  have henv : u.env = s'.env := by rw [hframe]
  have hu' : u = { s with mem := u.mem, env := u.env } := by rw [hframe, hs']
  refine ⟨u.beatEnd n, (exec_read hn).trans ((readBeat_takes hs ho').trans hu), ?_⟩
  exact
    { cell := by rw [State.cell?_beatEnd, hcell, hval]
      frame := by
        rw [hu']
        exact beatFrame rfl rfl rfl ⟨rfl, rfl, rfl, rfl, rfl, rfl⟩ ⟨rfl, rfl, rfl, rfl⟩
      memory := by
        rw [hs'] at hmem
        exact ⟨by simpa using hmem.words, by simpa using hmem.tapeLive, by simpa using hmem.cells⟩
      input := by simpa [henv] using hinput
      queued := fun rest hrest => by simpa [henv] using (hqueued tok rest hrest).2
      env := by
        simp only [State.beatEnd_env, henv]
        conv_lhs => rw [hs'] }

theorem afterToken_congr {s t : State} (h : s.SameConfig t) : t.afterToken = s.afterToken := by
  funext v tok
  cases tok with
  | byte b => rfl
  | eof =>
    have hep : t.epField = s.epField := by rw [State.epField, h.policy, State.epField]
    simp only [State.afterToken, hep, h.valueMin, h.valueMax]

theorem State.SameMemoryBut.refl (a : Nat) (s : State) : s.SameMemoryBut a s := ⟨fun _ => rfl, rfl, fun _ _ => rfl⟩

theorem State.SameMemoryBut.trans {a : Nat} {s t u : State} (h : s.SameMemoryBut a t) (h' : t.SameMemoryBut a u) :
    s.SameMemoryBut a u :=
  ⟨fun b => (h'.words b).trans (h.words b), h'.tapeLive.trans h.tapeLive,
    fun b hb => (h'.cells b hb).trans (h.cells b hb)⟩

/-- R93: beats of `Read` took the tokens in turn, from a cell that held `v` in `s`. -/
structure TokensRead (toks : List Token) (v : Int) (s t : State) : Prop where
  input : ∀ k, t.env.token? k = s.env.token? (k + toks.length)
  consumed : t.env.consumed = s.env.consumed + toks.length
  output : t.env.output = s.env.output
  cell : t.cell? = some (toks.foldl s.afterToken v)
  ptr : t.ptr = s.ptr
  memory : s.SameMemoryBut s.ptr.toNat t
  config : s.SameConfig t

theorem TokensRead.nil {v : Int} {s : State} (hv : s.cell? = some v) : TokensRead [] v s s :=
  ⟨fun _ => rfl, rfl, rfl, hv, rfl, .refl _ s, .refl s⟩

theorem TokensRead.snoc {toks : List Token} {tok : Token} {v : Int} {n : Opnd} {s t u : State}
    (h : TokensRead toks v s t) (hb : ReadBeat n tok (toks.foldl s.afterToken v) t u) :
    TokensRead (toks ++ [tok]) v s u where
  input k := by rw [hb.input, h.input, List.length_append, List.length_singleton, Nat.add_right_comm, Nat.add_assoc]
  consumed := by rw [hb.env, List.length_append, h.consumed]; rfl
  output := by rw [hb.env]; exact h.output
  cell := by rw [hb.cell, afterToken_congr h.config, List.foldl_append]; rfl
  ptr := hb.frame.ptr.trans h.ptr
  memory := h.memory.trans (h.ptr ▸ hb.memory)
  config := h.config.trans hb.frame.config

/-- Settles O25: by induction on the tokens from the last one; each beat takes the next token of the input. -/
theorem readTakesExactlyNTokens : Obligations.ReadTakesExactlyNTokens := by
  intro s n toks v hn hrep hinput hlen hv hep
  suffices h : ∃ t, execTimes (.read n) toks.length s = .next t ∧ TokensRead toks v s t ∧ BeatsDone n toks.length s t by
    obtain ⟨t, ht, hread, hdone⟩ := h
    exact ⟨t, ht, hread.input, hread.consumed, hread.output, hread.cell, hread.ptr, hread.memory, hdone.inner, hdone.last⟩
  induction toks using List.reverseRecOn with
  | nil => exact ⟨s, rfl, .nil hv, .zero hn hrep⟩
  | append_singleton toks tok ih =>
    simp only [List.length_append, List.length_singleton] at hinput hlen ⊢
    obtain ⟨t, ht, hread, hdone⟩ := ih
      (fun k hk => by rw [hinput k (by omega), List.getElem?_append_left hk]) (by omega)
    have htok : t.env.token? 0 = some tok := by rw [hread.input, hinput _ (by omega)]; simp
    obtain ⟨u, hu, hbeat⟩ := exec_read_beat hn htok hread.cell
      (fun _ => by rwa [State.epField, hread.config.policy])
    exact ⟨u, (execTimes_succ ht).trans hu, hread.snoc hbeat, hdone.succ hlen hbeat.frame⟩

end Sys2Proof.Machine
end

section
/-! SUPPORT. START, the host's register map (R25 to R35) with one rule for the reads and one for the ignored writes, and what
follows for `STATE`, the fault record and every state reached from reset. -/

namespace Sys2Proof.Machine

/-! ### START -/

/-- The machine's checks are those of the table of R103, read from the bits of `POLICY`. -/
theorem configCause_eq_firstFailingCheck (s : State) : s.configCause = s.firstFailingCheck := by
  have hzero : s.cellCount = 0#32 ↔ s.cellCount.toNat = 0 := BitVec.toNat_eq
  simp only [State.configCause, State.firstFailingCheck, State.valuePolicy_eq_none, State.pointerPolicy_eq_none,
    State.eofPolicy_eq_none, hzero]

theorem firstFailingCheck_le (s : State) : s.firstFailingCheck ≤ 6 := by
  unfold State.firstFailingCheck
  split_ifs <;> decide

theorem Params.hostW_ge {p : Params} (h : p.ok = true) : 32 ≤ p.hostW ∧ p.wCell ≤ p.hostW := by
  simp only [Params.ok, Bool.and_eq_true, decide_eq_true_eq] at h
  omega

/-- R30: a write of an odd word to `CONTROL` is a START, which a run ignores. -/
theorem hostAct_start {s : State} {value : Nat} (hp : s.params.ok = true) (hv : value % 2 = 1) :
    hostAct (.writeReg 0 value) s = s.start := by
  have hw := (Params.hostW_ge hp).1
  have hodd : value % 2 ^ s.params.hostW % 2 = 1 := by
    rw [Nat.mod_mod_of_dvd _ (dvd_pow_self 2 (by omega)), hv]
  show s.writeReg 0 value = s.start
  by_cases hr : s.runState = .running
  · simp [State.writeReg, State.start, hr]
  · simp [State.writeReg, State.writeIdle, hr, hodd]

/-- Settles O37: the three cases of a START. -/
theorem startBeginsAFreshRun : Obligations.StartBeginsAFreshRun := by
  intro s value hp hv
  rw [hostAct_start hp hv, ← configCause_eq_firstFailingCheck]
  refine ⟨fun hr => by simp [State.start, hr], fun hr => ⟨s.start, rfl, ?_⟩⟩
  have hconfig := sameConfig_start s
  obtain ⟨hrun, -⟩ | ⟨-, hc, he⟩ | ⟨-, hc, he⟩ := start_cases s
  · exact absurd hrun hr
  · rw [he] at hconfig ⊢
    refine ⟨rfl, rfl, rfl, rfl, hconfig, fun _ => rfl, rfl, fun _ => ⟨rfl, rfl, rfl, fun a ha => ?_, fun a ha => ?_⟩,
      fun hne => absurd hc hne⟩
    · simp [Memory.cell?_eq_some, ha]
    · simp [ha]
  · rw [he] at hconfig ⊢
    refine ⟨rfl, rfl, rfl, rfl, hconfig, fun _ => rfl, rfl, fun h0 => absurd h0 hc, fun _ => ⟨rfl, rfl, ?_, rfl⟩⟩
    have hle := configCause_eq_firstFailingCheck s ▸ firstFailingCheck_le s
    simp only [BitVec.toNat_ofNat]
    omega

/-- Settles O40: the reset state evaluated; no cell is live and no word is listed. -/
theorem resetValues : Obligations.ResetValues := by
  refine ⟨rfl, rfl, rfl, rfl, rfl, rfl, rfl, by decide, rfl, rfl, rfl, rfl, rfl, by decide, by decide, by decide,
    fun _ => rfl, fun _ => rfl, by decide, fun p hp => ?_⟩
  simp [State.firstFailingCheck, State.reset, hp]

/-! ### The register map -/

/-- The offsets whose writes outside a run can change the state (R25 to R30). -/
def writableOffsets : List Nat := [0x00, 0x08, 0x0C, 0x10, 0x14, 0x18]

/-- The offsets of the registers a read returns the content of (R25 to R33). -/
def readableOffsets : List Nat := [0x04, 0x08, 0x0C, 0x10, 0x14, 0x18, 0x1C, 0x20, 0x24, 0x28]

theorem hostAct_writeReg_running {s : State} (hr : s.runState = .running) (offset value : Nat) :
    hostAct (.writeReg offset value) s = s :=
  if_pos hr

theorem hostAct_writeReg_idle {s : State} (hr : s.runState ≠ .running) (offset value : Nat) :
    hostAct (.writeReg offset value) s = s.writeIdle offset (value % 2 ^ s.params.hostW) :=
  if_neg hr

/-- R34, R48: read-only, reserved and misaligned offsets ignore a write. -/
theorem hostAct_writeReg_ignored {offset : Nat} (h : offset ∉ writableOffsets) (s : State) (value : Nat) :
    hostAct (.writeReg offset value) s = s := by
  simp only [writableOffsets, List.mem_cons, List.not_mem_nil, or_false, not_or] at h
  obtain ⟨h00, h08, h0C, h10, h14, h18⟩ := h
  by_cases hr : s.runState = .running
  · exact hostAct_writeReg_running hr offset value
  · rw [hostAct_writeReg_idle hr]
    rw [State.writeIdle] <;> assumption

/-- R30, R34, R48: `CONTROL`, reserved and misaligned offsets read 0. -/
theorem readReg_unmapped {offset : Nat} (h : offset ∉ readableOffsets) (s : State) : s.readReg offset = (0, s) := by
  simp only [readableOffsets, List.mem_cons, List.not_mem_nil, or_false, not_or] at h
  obtain ⟨h04, h08, h0C, h10, h14, h18, h1C, h20, h24, h28⟩ := h
  rw [State.readReg] <;> assumption

/-- Settles O39: every port asks whether the block is RUNNING, and a read changes the replies and the draws at most. -/
theorem hostWritesAreIgnoredWhileRunning : Obligations.HostWritesAreIgnoredWhileRunning := by
  intro s hr
  refine ⟨hostAct_writeReg_running hr, fun _ _ => if_pos hr, fun offset => ?_⟩
  obtain h | h := readReg_state s offset
  · exact ⟨(s.readReg offset).1, s.env.draws, by simp only [hostAct, State.reply, h]⟩
  · exact ⟨(s.readReg offset).1, s.env.draws + 1, by simp only [hostAct, State.reply, h, State.draw]⟩

theorem toNat_append_eq {m n : Nat} (x : BitVec m) (y : BitVec n) : (x ++ y).toNat = x.toNat * 2 ^ n + y.toNat := by
  rw [BitVec.toNat_append, Nat.shiftLeft_eq, Nat.mul_comm, Nat.two_pow_add_eq_or_of_lt y.isLt]

/-- R31: the fields of `STATUS` as a number. -/
theorem status_toNat (s : State) :
    s.status.toNat = s.runState.bits.toNat + 4 * s.runState.exitBit.toNat + 16 * s.faultCode.toNat := by
  unfold State.status
  rw [toNat_append_eq, toNat_append_eq, toNat_append_eq, toNat_append_eq]
  simp only [BitVec.toNat_ofNat]
  omega

/-- Settles O42: the fields of `STATUS`; the record's rule of the invariant clears `FAULT_CODE` outside FAULT. -/
theorem statusLayout : Obligations.StatusLayout := by
  intro s
  refine ⟨?_, fun hinv hr => ?_, rfl, hostAct_writeReg_ignored (by decide) s⟩
  · rw [status_toNat]
    cases s.runState <;> rfl
  · obtain ⟨hcode, -, -⟩ := hinv.record.clear hr
    rw [status_toNat, hcode]
    cases s.runState <;> rfl

/-- Settles O43: the registers read as they stand, the value bounds sign-extended, and all other offsets read 0. -/
theorem registerMapReads : Obligations.RegisterMapReads := by
  intro s hp hmin hmax
  have h9 := Params.nine_le_wCell hp
  have hw := (Params.hostW_ge hp).2
  refine ⟨rfl, ⟨_, rfl, signExtended_eq hmin.1 hmin.2 hw (by omega)⟩, ⟨_, rfl, signExtended_eq hmax.1 hmax.2 hw (by omega)⟩,
    rfl, rfl, rfl, rfl, rfl, fun offset h => ⟨readReg_unmapped ?_ s, hostAct_writeReg_ignored ?_ s⟩⟩
  · simp only [readableOffsets, List.mem_cons, List.not_mem_nil, or_false]; omega
  · simp only [writableOffsets, List.mem_cons, List.not_mem_nil, or_false]; omega

/-- Settles O44: outside a run each writable offset has its arm, and the read-only ones none. -/
theorem registerMapWrites : Obligations.RegisterMapWrites := by
  intro s value hp hr hlt
  have hwrite (offset : Nat) : hostAct (.writeReg offset value) s = s.writeIdle offset value := by
    rw [hostAct_writeReg_idle hr, Nat.mod_eq_of_lt hlt]
  refine ⟨⟨_, hwrite 0x08, fitsCell_signedLow hp value, signedLow_dvd _ _⟩,
    ⟨_, hwrite 0x0C, fitsCell_signedLow hp value, signedLow_dvd _ _⟩, hwrite 0x10, hwrite 0x14, fun heven => ?_,
    fun offset h => hostAct_writeReg_ignored ?_ s value⟩
  · rw [hwrite]
    exact if_neg (by omega)
  · obtain rfl | rfl | rfl | rfl := h <;> decide

/-- R29: what `POLICY` keeps of a word is its remainder by 128. -/
theorem and_policyMask_toNat (w : Word) : (w &&& policyMask).toNat = w.toNat % 128 := by
  rw [BitVec.toNat_and]
  exact Nat.and_two_pow_sub_one_eq_mod w.toNat 7

/-- Settles O45: the port and the register cut the word to no fewer than seven bits, and the mask keeps those. -/
theorem policyKeepsItsSevenBits : Obligations.PolicyKeepsItsSevenBits := by
  intro s value hp hr
  have hw := (Params.hostW_ge hp).1
  refine ⟨_, ?_, hostAct_writeReg_idle hr 0x18 value⟩
  have hport : (128 : Nat) ∣ 2 ^ s.params.hostW := pow_dvd_pow 2 (by omega : 7 ≤ s.params.hostW)
  rw [and_policyMask_toNat, BitVec.toNat_ofNat, Nat.mod_mod_of_dvd _ (by decide), Nat.mod_mod_of_dvd _ hport]

/-- R32, U5: a drawn boundary is one of those recorded. -/
theorem drawBoundary_mem {s : State} (h : s.env.held ≠ []) : s.drawBoundary.1 ∈ s.env.held := by
  have hlt := Nat.mod_lt s.draw.1 (List.length_pos_iff.2 h)
  simp only [State.drawBoundary, List.getD_eq_getElem _ _ hlt, List.getElem_mem]

/-- Settles O46: a read is of the register itself, or in a run of a drawn boundary. -/
theorem cursorAndPointerReads : Obligations.CursorAndPointerReads := by
  intro s
  refine ⟨fun hr => ⟨if_neg hr, if_neg hr⟩, fun hr hheld => ?_, fun offset value h => hostAct_writeReg_ignored ?_ s value⟩
  · have hmem := drawBoundary_mem hheld
    exact ⟨⟨_, hmem, by simp [State.readReg, hr]⟩, ⟨_, hmem, by simp [State.readReg, hr]⟩⟩
  · obtain rfl | rfl := h <;> decide

/-! ### `STATE` and the fault record through a step -/

/-- Settles O35: outside a run the executor changes nothing, and the host's other actions write nothing of the executor's. -/
theorem faultRecordStaysUntilStartOrReset : Obligations.FaultRecordStaysUntilStartOrReset := by
  intro s t _ hr ht hhost
  obtain ⟨rest, -, ht⟩ | ⟨a, rest, hturn, rfl⟩ := step_next ht
  · have hrun : (s.withTurns rest).runState ≠ .running := by simp [hr]
    obtain ⟨-, rfl⟩ | ⟨h, -⟩ | ⟨h, -⟩ := executorTurn_next ht
    · exact ⟨⟨rfl, rfl, rfl, rfl⟩, rfl, rfl⟩
    · exact absurd h hrun
    · exact absurd h hrun
  · obtain ⟨hstart, hreset⟩ := hhost a rest hturn
    obtain ⟨⟨h1, h2, h3, h4⟩, hpc, hptr, -⟩ := hostAct_frame (s.withTurns rest) hstart hreset
    exact ⟨⟨h1, h2, h3, h4⟩, hpc, hptr⟩

/-- R104: an instruction changes `STATE` only by a fault. -/
theorem exec_runState {i : Instr} {s t : State} (h : exec i s = .next t) :
    t.runState = s.runState ∨ t.runState = .fault := by
  cases exec_cases h with
  | illegal | valueFault | pointerFault => exact .inr rfl
  | valueStored | pointerMoved | readStall | writeStall | openSkips | openEnters | closeRepeats | closeLeaves =>
    exact .inl rfl
  | readKept n tok s' _ hs =>
    obtain ⟨e, rfl, -⟩ := takeToken_env hs
    exact .inl (by simp)
  | readStored n tok s' v _ hs =>
    obtain ⟨e, rfl, -⟩ := takeToken_env hs
    exact .inl (by simp)
  | writeBeat => exact .inl (by simp)

/-- R23: how the executor's turn changes `STATE`. -/
theorem executorTurn_runState {s t : State} (h : executorTurn s = .next t) (hne : t.runState ≠ s.runState) :
    s.runState = .running ∧
      ((s.progLen.toNat ≤ s.pc.toNat ∧ t.runState = .done) ∨ (s.pc.toNat < s.progLen.toNat ∧ t.runState = .fault)) := by
  obtain ⟨-, rfl⟩ | ⟨hr, hpc, rfl⟩ | ⟨hr, hpc, w, u, -, hu, rfl⟩ := executorTurn_next h
  · exact absurd rfl hne
  · exact ⟨hr, .inl ⟨hpc, rfl⟩⟩
  · rw [State.noteBoundary_runState] at hne ⊢
    exact ⟨hr, .inr ⟨hpc, (exec_runState hu).resolve_left hne⟩⟩

/-- R23: how a host action changes `STATE`. -/
theorem hostAct_runState {s : State} {a : HostAction} (hne : (hostAct a s).runState ≠ s.runState) :
    (a = .reset ∧ (hostAct a s).runState = .idle) ∨
    (a.startsRun = true ∧ s.runState ≠ .running ∧
      ((s.firstFailingCheck = 0 ∧ (hostAct a s).runState = .running) ∨
       (s.firstFailingCheck ≠ 0 ∧ (hostAct a s).runState = .fault))) := by
  have h := hostAct_cases s a
  generalize hostAct a s = t at h hne ⊢
  cases h with
  | resets => exact .inl ⟨rfl, rfl⟩
  | configures | loads | outside => exact absurd rfl hne
  | starts value hv =>
    rw [← configCause_eq_firstFailingCheck]
    have hstart : (HostAction.writeReg 0 value).startsRun = true := by simp [HostAction.startsRun, hv]
    obtain ⟨-, he⟩ | ⟨hr, hc, he⟩ | ⟨hr, hc, he⟩ := start_cases s <;> rw [he] at hne ⊢
    · exact absurd rfl hne
    · exact .inr ⟨hstart, hr, .inl ⟨hc, rfl⟩⟩
    · exact .inr ⟨hstart, hr, .inr ⟨hc, rfl⟩⟩

/-- Settles O52: the changes of `STATE` by each of the two agents. -/
theorem onlyTheListedTransitionsOfState : Obligations.OnlyTheListedTransitionsOfState := by
  refine ⟨⟨rfl, rfl, rfl, rfl⟩, fun s t _ ht hne => ?_⟩
  obtain ⟨rest, hturn, ht⟩ | ⟨a, rest, hturn, rfl⟩ := step_next ht
  · exact .inr (.inr ⟨hturn.imp And.left fun h => ⟨rest, h⟩, executorTurn_runState (s := s.withTurns rest) ht hne⟩)
  · obtain ⟨rfl, hidle⟩ | ⟨hstart, hr, h⟩ := hostAct_runState (s := s.withTurns rest) hne
    · exact .inl ⟨rest, hturn, hidle⟩
    · exact .inr (.inl ⟨a, rest, hturn, hstart, hr, h⟩)

/-! ### Every state reached from reset -/

/-- What every step keeps holds after any number of steps. -/
theorem run_keeps {P : State → Prop} (hstep : ∀ s t, P s → step s = .next t → P t) {k : Nat} {s t : State} (hs : P s)
    (h : Host.Core.run core k s = .next t) : P t := by
  induction k generalizing s with
  | zero => cases h; exact hs
  | succ k ih =>
    simp only [Host.Core.run] at h
    split at h
    · exact ih (hstep s _ hs ‹_›) h
    · cases h
    · cases h

/-- Settles O50: the invariant holds at reset and through every step, and gives the four clauses. -/
theorem reachableStatesMeetTheSpecInvariants : Obligations.ReachableStatesMeetTheSpecInvariants := by
  intro p env k s hp hk
  obtain ⟨hinv, rfl⟩ : s.Inv ∧ s.params = p :=
    run_keeps (P := fun s => s.Inv ∧ s.params = p) (fun s t h ht => ⟨h.1.step ht, (step_params ht).trans h.2⟩)
      ⟨.reset env hp, rfl⟩ hk
  have hchecks (hr : s.runState = .running) := configCause_eq_zero (hinv.run hr).checks
  refine ⟨fun hr => ?_, fun hr => ?_, fun hr => ?_, hinv.rep⟩
  · obtain ⟨-, -, -, -, hpos, hdepth, -⟩ := hchecks hr
    exact ⟨hpos, hdepth, (hinv.run hr).ptr⟩
  · obtain ⟨-, -, -, -, -, -, hlen⟩ := hchecks hr
    exact ⟨(hinv.run hr).pc, hlen⟩
  · obtain ⟨hvp, hpp, hep, hle, -⟩ := hchecks hr
    have hvp3 := mt s.valuePolicy_eq_none.2 hvp
    have hpp3 := mt s.pointerPolicy_eq_none.2 hpp
    have hep5 := mt s.eofPolicy_eq_none.2 hep
    omega

end Sys2Proof.Machine
end

section
/-! SUPPORT. The codec: the two fields of a word make it up, so decoding and encoding are inverse (R56 to R60), and the four
bytes of a word make it up, so a byte file reads back as its image (R47). -/

namespace Sys2Proof

/-! ### Decoding and encoding -/

theorem opcode_ofOpcode (opc : BitVec 3) (opnd : Opnd) : (ofOpcode opc opnd).opcode = opc := by
  have hlt := opc.isLt
  apply BitVec.eq_of_toNat_eq
  unfold ofOpcode
  generalize opc.toNat = k at hlt
  interval_cases k <;> rfl

theorem operand_ofOpcode (opc : BitVec 3) (opnd : Opnd) : (ofOpcode opc opnd).operand = opnd := by
  unfold ofOpcode
  split <;> rfl

theorem ofOpcode_opcode_operand (i : Instr) : ofOpcode i.opcode i.operand = i := by
  cases i <;> rfl

theorem opcField_append_opndField (w : Word) : opcField w ++ opndField w = w := by
  have hw := w.isLt
  apply BitVec.eq_of_toNat_eq
  rw [Laws.word_toNat]
  simp only [opcField, opndField, BitVec.extractLsb'_toNat, Nat.shiftRight_eq_div_pow]
  omega

theorem decode_encode (i : Instr) : decode (encode i) = i := by
  obtain ⟨-, hopc, hopnd⟩ := Laws.encodingFields i
  rw [decode, hopc, hopnd, ofOpcode_opcode_operand]

theorem encode_decode (w : Word) : encode (decode w) = w := by
  rw [encode, decode, opcode_ofOpcode, operand_ofOpcode, opcField_append_opndField]

/-! ### The byte file -/

theorem wordBytes_toNat (w : Word) : (wordBytes w).map BitVec.toNat =
    [w.toNat % 256, w.toNat / 256 % 256, w.toNat / 65536 % 256, w.toNat / 16777216] := by
  have hw := w.isLt
  have htop : w.toNat / 16777216 % 256 = w.toNat / 16777216 := Nat.mod_eq_of_lt (by omega)
  simp [wordBytes, BitVec.extractLsb'_toNat, Nat.shiftRight_eq_div_pow, htop]

theorem wordOfBytes_bytes (w : Word) :
    wordOfBytes (w.extractLsb' 0 8) (w.extractLsb' 8 8) (w.extractLsb' 16 8) (w.extractLsb' 24 8) = w := by
  have hw := w.isLt
  apply BitVec.eq_of_toNat_eq
  unfold wordOfBytes
  rw [Machine.toNat_append_eq, Machine.toNat_append_eq, Machine.toNat_append_eq]
  simp only [BitVec.extractLsb'_toNat, Nat.shiftRight_eq_div_pow]
  omega

theorem decodeBytes_wordBytes (w : Word) (rest : List Byte) :
    decodeBytes (wordBytes w ++ rest) = .ok (decode w, rest) := by
  simp only [wordBytes, List.cons_append, List.nil_append, decodeBytes, wordOfBytes_bytes]

theorem imageOfBytes_wordBytes {bytes : List Byte} {ws : List Word} (h : imageOfBytes bytes = .ok ws) (w : Word) :
    imageOfBytes (wordBytes w ++ bytes) = .ok (w :: ws) := by
  simp only [wordBytes, List.cons_append, List.nil_append, imageOfBytes, h, wordOfBytes_bytes]

theorem imageOfBytes_bytesOfImage (ws : List Word) : imageOfBytes (bytesOfImage ws) = .ok ws := by
  induction ws with
  | nil => rfl
  | cons w ws ih => exact imageOfBytes_wordBytes ih w

/-- Settles O4: the fields of an instruction's word are its own, and every word is made up of its fields and of its bytes. -/
theorem decodeAndEncodeAgree : Obligations.DecodeAndEncodeAgree :=
  ⟨decode_encode, encode_decode, fun i rest => by rw [decodeBytes_wordBytes, decode_encode]⟩

/-- Settles O5: by induction on the image, each word read back from its four bytes. -/
theorem imageFileIsLittleEndian : Obligations.ImageFileIsLittleEndian :=
  ⟨wordBytes_toNat, imageOfBytes_bytesOfImage⟩

end Sys2Proof
end

section
/-! SUPPORT. The beats of `Read` and `Write` one by one with their stalls (R41, R44), the memory ports (R46), what one turn
of the executor touches (R39, R45), and the observation of a run that has ended (R83). -/

namespace Sys2Proof.Machine

/-! ### One beat, or a stall -/

theorem configCause_ne_zero_of_reservedEof {s : State} (h : 5 ≤ s.epField) : s.configCause ≠ 0 := by
  intro hc
  obtain ⟨-, -, heof, -⟩ := configCause_eq_zero hc
  exact heof (s.eofPolicy_eq_none.2 h)

/-- Settles O21: the beat of `Read` by its rule, and the table of R94 row by row. -/
theorem readBeatStoresTheToken : Obligations.ReadBeatStoresTheToken := by
  refine ⟨fun s n tok v hn htok hv hep => ?_, fun s v b => ?_⟩
  · obtain ⟨t, ht, hcell, hframe, hmem, hinput, hqueued, henv⟩ := exec_read_beat hn htok hv hep
    exact ⟨t, ht, hcell, hframe, hmem, hinput, hqueued, henv⟩
  · refine ⟨rfl, ?_, ?_, ?_, ?_, ?_, configCause_ne_zero_of_reservedEof⟩
    all_goals
      intro h
      simp [State.afterToken, h]

/-- Settles O22: no token on offer is no token to take. -/
theorem readStallsWithoutAToken : Obligations.ReadStallsWithoutAToken := by
  intro s n hn htok
  rw [exec_read hn]
  simp only [readBeat, takeToken_eq_none.2 htok]

/-- Settles O23: the beat of `Write` by its rule; the byte is the remainder of the cell by 256. -/
theorem writeBeatEmitsTheLowByte : Obligations.WriteBeatEmitsTheLowByte := by
  intro s n v hn hv hready
  obtain ⟨hnext, hframe⟩ := exec_write_emits hn hv hready
  exact ⟨_, low8 v, hnext, by simp, low8_toNat v, hframe, ⟨by simp, by simp, by simp⟩⟩

/-- Settles O24: without acceptance the beat answers the state it found. -/
theorem writeStallsUntilAccepted : Obligations.WriteStallsUntilAccepted := by
  intro s n v hn hv hready
  rw [exec_write hn]
  simp [writeBeat, hv, hready]

/-! ### The memory ports -/

theorem hostAct_writeImage {s : State} {index : Nat} (hr : s.runState ≠ .running) (hi : index < s.params.imemDepth)
    (w : Word) : hostAct (.writeImage index w) s = { s with mem := s.mem.setWord index w } := by
  simp [hostAct, State.writeImage, hr, hi]

theorem hostAct_writeImage_pastEnd {s : State} {index : Nat} (hi : s.params.imemDepth ≤ index) (w : Word) :
    hostAct (.writeImage index w) s = s := by
  simp [hostAct, State.writeImage, Nat.not_lt.2 hi]

theorem mem_of_same_or_draw {s u : State} (h : u = s ∨ u = s.draw.2) : u.mem = s.mem := by
  obtain rfl | rfl := h <;> rfl

/-- Settles O47: each port inside its depth and past it; a read draws a value at most. -/
theorem memoryPorts : Obligations.MemoryPorts := by
  intro s index w
  refine ⟨fun hr hi => ?_, fun hi => ⟨if_neg (Nat.not_lt.2 hi), hostAct_writeImage_pastEnd hi w⟩,
    fun hi => if_neg (Nat.not_lt.2 hi), fun v hr hi hv => ?_, mem_of_same_or_draw (readImage_state s index),
    mem_of_same_or_draw (readTape_state s index)⟩
  · rw [hostAct_writeImage hr hi]
    exact ⟨by simp [State.readImage, hi], fun b hb => by simp [hb.symm], fun b => rfl⟩
  · simp [State.readTape, hr, hi, hv, signExtended]

/-! ### What one turn of the executor touches -/

theorem State.SameMemoryBut.of_mem_eq {a : Nat} {s t : State} (h : t.mem = s.mem) : s.SameMemoryBut a t :=
  ⟨fun b => by rw [h], by rw [h], fun b _ => by rw [h]⟩

theorem State.SameMemoryBut.of_setCell {a : Nat} {v : Int} {s t : State} (h : t.mem = s.mem.setCell a v) :
    s.SameMemoryBut a t :=
  ⟨fun b => by rw [h, Memory.word?_setCell], by rw [h, Memory.tapeLive_setCell], fun b hb => by simp [h, hb.symm]⟩

/-- R39, R40, R45: at most the current cell, one token, the next of the input, and one byte at the end of the output. -/
structure TurnFrame (s t : State) : Prop where
  memory : s.SameMemoryBut s.ptr.toNat t
  output : t.env.output = s.env.output ∨ ∃ b, t.env.output = s.env.output ++ [b]
  input : t.env.input = s.env.input ∧ t.env.source = s.env.source ∧ t.env.consumed = s.env.consumed ∨
    (s.env.token? 0).isSome = true ∧ (∀ k, t.env.token? k = s.env.token? (k + 1)) ∧ t.env.consumed = s.env.consumed + 1

theorem TurnFrame.of_sameEnv {s t : State} (hm : s.SameMemoryBut s.ptr.toNat t) (he : t.env = s.env) : TurnFrame s t where
  memory := hm
  output := .inl (by rw [he])
  input := .inl (by simp only [he, and_self])

theorem TurnFrame.of_takeToken {s s' t : State} {tok : Token} (hs : s.takeToken = some (tok, s'))
    (hm : s.SameMemoryBut s.ptr.toNat t) (he : t.env = s'.env) : TurnFrame s t := by
  obtain ⟨htok, hinput, -, hs'⟩ := takeToken_eq_some hs
  exact ⟨hm, .inl (by rw [he, hs']), .inr ⟨by rw [htok]; rfl, fun k => by rw [he, hinput], by rw [he, hs']⟩⟩

theorem TurnFrame.noteBoundary {s t : State} (h : TurnFrame s t) : TurnFrame s t.noteBoundary where
  memory := h.memory.trans (.of_mem_eq (by simp))
  output := by rw [State.noteBoundary_env]; exact h.output
  input := by rw [State.noteBoundary_env]; exact h.input

theorem exec_turnFrame {i : Instr} {s t : State} (h : exec i s = .next t) : TurnFrame s t := by
  cases exec_cases h with
  | illegal | valueFault | pointerMoved | pointerFault | readStall | writeStall | openSkips | openEnters | closeRepeats
    | closeLeaves => exact .of_sameEnv (.of_mem_eq rfl) rfl
  | valueStored dir n v r => exact .of_sameEnv (.of_setCell rfl) rfl
  | readKept n tok s' _ hs =>
    obtain ⟨e, rfl, -⟩ := takeToken_env hs
    exact .of_takeToken hs (.of_mem_eq (by simp)) (by simp)
  | readStored n tok s' v _ hs =>
    obtain ⟨e, rfl, -⟩ := takeToken_env hs
    exact .of_takeToken hs (.of_setCell (v := v) (by simp)) (by simp)
  | writeBeat n v => exact ⟨.of_mem_eq (by simp), .inr ⟨low8 v, by simp⟩, .inl (by simp)⟩

theorem executorTurn_turnFrame {s t : State} (h : executorTurn s = .next t) : TurnFrame s t := by
  obtain ⟨-, rfl⟩ | ⟨-, -, rfl⟩ | ⟨-, -, w, u, -, hu, rfl⟩ := executorTurn_next h
  · exact .of_sameEnv (.of_mem_eq rfl) rfl
  · exact .of_sameEnv (.of_mem_eq rfl) rfl
  · exact (exec_turnFrame hu).noteBoundary

/-- R71: outside a run the executor's turn changes nothing. -/
theorem executorTurn_outside_run {s t : State} (hr : s.runState ≠ .running) (h : executorTurn s = .next t) : t = s := by
  obtain ⟨-, rfl⟩ | ⟨hrun, -⟩ | ⟨hrun, -⟩ := executorTurn_next h
  · rfl
  · exact absurd hrun hr
  · exact absurd hrun hr

/-- Settles O54: the frame of a turn, from the cases of `exec`. -/
theorem oneTurnTouchesOneCellAndOneToken : Obligations.OneTurnTouchesOneCellAndOneToken := by
  intro s t h
  obtain ⟨hmem, hout, hin⟩ := executorTurn_turnFrame h
  exact ⟨hmem.cells, hmem.tapeLive, hout, hin, fun hr => executorTurn_outside_run hr h⟩

/-! ### The observation of a run that has ended -/

/-- R103, R117: a START that fails a check is the end of its run, with no output and no token. -/
theorem runEnd?_start_of_failingCheck {s : State} (hr : s.runState ≠ .running) (hc : s.firstFailingCheck ≠ 0) :
    s.start.runEnd? = some
      { exit := 1#1, faultCode := 3#4, faultPc := 0#32, faultInfo := BitVec.ofNat 32 s.firstFailingCheck
        output := [], consumed := 0, ptr := 0#32, pc := 0#32
        cells := (List.range s.cellCount.toNat).map s.mem.cell? } := by
  rw [← configCause_eq_firstFailingCheck] at hc ⊢
  obtain ⟨hrun, -⟩ | ⟨-, h0, -⟩ | ⟨-, -, he⟩ := start_cases s
  · exact absurd hrun hr
  · exact absurd h0 hc
  · rw [he]
    simp [State.runEnd?, RunState.halted, RunState.exitBit, FaultCode.bits]

theorem runEnd?_hostAct (s : State) {a : HostAction} (hs : a.startsRun = false) (hr : a ≠ .reset) :
    (hostAct a s).runEnd? = s.runEnd? := by
  have h := hostAct_cases s a
  generalize hostAct a s = t at h
  cases h with
  | starts value hv => simp [HostAction.startsRun, hv] at hs
  | resets => exact absurd rfl hr
  | configures | loads | outside => rfl

/-- Settles O59: a faulting START by its case, and neither agent's turn touches what is observed of an ended run. -/
theorem observationOfAnEndedRun : Obligations.ObservationOfAnEndedRun := by
  refine ⟨fun s hr => by simp [State.runEnd?, hr, RunState.halted], fun s value hp hv hr hc => ?_,
    fun s t _ hr ht hhost => ?_⟩
  · rw [hostAct_start hp hv]
    exact runEnd?_start_of_failingCheck hr hc
  · obtain ⟨rest, -, ht⟩ | ⟨a, rest, hturn, rfl⟩ := step_next ht
    · obtain rfl := executorTurn_outside_run (s := s.withTurns rest) hr ht
      rfl
    · obtain ⟨hstart, hreset⟩ := hhost a rest hturn
      exact runEnd?_hostAct (s.withTurns rest) hstart hreset

end Sys2Proof.Machine
end

section
/-! SUPPORT. The fields of a word as numbers (R56, R57, R60), an instruction that is illegal at its `PC` (R61), and the step as
the execution of the decoded word (R72). -/

namespace Sys2Proof

/-! ### The word of an instruction -/

theorem opcField_toNat (w : Word) : (opcField w).toNat = w.toNat / 2 ^ 29 := by
  have hw := w.isLt
  simp only [opcField, BitVec.extractLsb'_toNat, Nat.shiftRight_eq_div_pow]
  omega

theorem opndField_eq_ofNat (w : Word) : opndField w = BitVec.ofNat 29 w.toNat := by
  apply BitVec.eq_of_toNat_eq
  simp [opndField]

/-- R57, R60: the number in the top three bits and the operand in the low 29 name the instruction. -/
theorem decode_eq_of_fields {w : Word} {i : Instr} (hopc : w.toNat / 2 ^ 29 = i.opcode.toNat)
    (hopnd : BitVec.ofNat 29 w.toNat = i.operand) : decode w = i := by
  have hfield : opcField w = i.opcode := BitVec.eq_of_toNat_eq ((opcField_toNat w).trans hopc)
  rw [decode, hfield, opndField_eq_ofNat, hopnd, ofOpcode_opcode_operand]

/-- Settles O3: the two fields of the word as numbers, and each instruction by its opcode. -/
theorem everyWordNamesOneInstruction : Obligations.EveryWordNamesOneInstruction := by
  refine fun w => ⟨?_, fun h => decode_eq_of_fields h rfl, fun h => decode_eq_of_fields h rfl,
    fun h => decode_eq_of_fields h rfl, fun h => decode_eq_of_fields h rfl, fun h => decode_eq_of_fields h rfl,
    fun h => decode_eq_of_fields h rfl, fun h => decode_eq_of_fields h rfl, fun h => decode_eq_of_fields h rfl⟩
  rw [decode, operand_ofOpcode, opndField_eq_ofNat, BitVec.toNat_ofNat]

/-- Settles O2: each word is the encoding of the instruction named for it. -/
theorem wordsOfTheSpecDecode : Obligations.WordsOfTheSpecDecode :=
  ⟨decode_encode (.incValue 10#29), decode_encode (.decValue 1#29), decode_encode (.incPointer 5#29),
    decode_encode (.decPointer 1#29), decode_encode (.read 1#29), decode_encode (.write 3#29),
    decode_encode (.loopOpen 29#29), decode_encode (.loopClose 24#29)⟩

end Sys2Proof

namespace Sys2Proof.Machine

/-- Settles O1: the producer and the encoder evaluated on the two examples. -/
theorem workedEncodingsOfTheSpec : Obligations.WorkedEncodingsOfTheSpec := ⟨rfl, rfl, rfl, rfl⟩

/-! ### Illegal instructions -/

/-- R61, R72: an instruction illegal at its `PC` is not run. -/
theorem exec_of_illegal {s : State} {i : Instr} (h : s.legal i = false) :
    exec i s = .next (s.raise .illegalInstruction (encode i)) := by
  cases i <;> exact guardLegal_of_illegal h _

/-- R61, R102: a legal instruction leaves `STATE` alone or faults with the code of its own path. -/
theorem exec_fault_of_legal {s t : State} {i : Instr} (hl : s.legal i = true) (h : exec i s = .next t) :
    t.runState = s.runState ∨ t.faultCode = FaultCode.valueRange.bits ∨ t.faultCode = FaultCode.pointerRange.bits := by
  cases exec_cases h with
  | illegal _ hn => rw [hl] at hn; cases hn
  | valueFault => exact .inr (.inl rfl)
  | pointerFault => exact .inr (.inr rfl)
  | valueStored | pointerMoved | readStall | writeStall | openSkips | openEnters | closeRepeats | closeLeaves =>
    exact .inl rfl
  | readKept n tok s' _ hs =>
    obtain ⟨e, rfl, -⟩ := takeToken_env hs
    exact .inl (by simp)
  | readStored n tok s' v _ hs =>
    obtain ⟨e, rfl, -⟩ := takeToken_env hs
    exact .inl (by simp)
  | writeBeat => exact .inl (by simp)

/-- Settles O32: an illegal instruction takes the fault, and a legal one keeps `STATE` or faults with another code. -/
theorem illegalWordsFaultExactly : Obligations.IllegalWordsFaultExactly := by
  intro s i
  rw [illegalHere_iff, Bool.not_eq_false]
  refine ⟨exec_of_illegal, fun hl hr t ht hf => ?_⟩
  obtain h | h | h := exec_fault_of_legal hl ht
  · rw [hr, hf] at h; cases h
  · rw [h]; decide
  · rw [h]; decide

/-! ### The step of a run -/

/-- R49: with no turn planned, or the executor's planned first, the step is the executor's turn. -/
theorem step_of_executorFirst {s : State} {rest : List Turn}
    (h : (s.env.turns = [] ∧ rest = []) ∨ s.env.turns = .executor :: rest) :
    step s = executorTurn (s.withTurns rest) := by
  obtain ⟨hnil, rfl⟩ | hcons := h
  · have hsame : s.withTurns [] = s := by rw [State.withTurns, ← hnil]
    rw [step, takeTurn, hsame]
    simp only [hnil]
  · rw [step, takeTurn]
    simp only [hcons]

/-- R72, R73: the executor's turn in a run with a word at `PC`. -/
theorem executorTurn_of_word {s : State} {w : Word} (hr : s.runState = .running) (hpc : s.pc.toNat < s.progLen.toNat)
    (hw : s.mem.word? s.pc.toNat = some w) : executorTurn s = onNext State.noteBoundary (exec (decode w) s) := by
  have hfetch : s.fetch? = some w := hw
  simp only [executorTurn, hr, runStep, Nat.not_le.2 hpc, if_false, hfetch]

/-- R32: after the recording the boundaries held are the current one and those held before. -/
theorem mem_held_noteBoundary_iff (s : State) (p : Word × Word) :
    p ∈ s.noteBoundary.env.held ↔ p = (s.pc, s.ptr) ∨ p ∈ s.env.held := by
  by_cases h : (s.pc, s.ptr) ∈ s.env.held
  · rw [s.noteBoundary_eq_self h]
    exact ⟨.inr, fun hp => hp.elim (· ▸ h) id⟩
  · simp [State.noteBoundary, h]

/-- Recording the boundary touches `held` alone. -/
theorem noteBoundary_eq (s : State) :
    s.noteBoundary = { s with env := { s.env with held := s.noteBoundary.env.held } } := by
  by_cases h : (s.pc, s.ptr) ∈ s.env.held
  · rw [s.noteBoundary_eq_self h]
  · simp [State.noteBoundary, h]

/-- Settles O6: the executor's turn with a word at `PC`, and what recording the boundary changes. -/
theorem stepRunsTheDecodedInstruction : Obligations.StepRunsTheDecodedInstruction :=
  ⟨fun _ _ _ hturn hr hpc hw => (step_of_executorFirst hturn).trans (executorTurn_of_word hr hpc hw),
    fun t => ⟨noteBoundary_eq t, mem_held_noteBoundary_iff t⟩⟩

end Sys2Proof.Machine
end

section
/-! SUPPORT. The image producer: what scanning one character can do, the folded run (R66), the balance of brackets (R67) and the
pairing invariant (R68), each kept from character to character. -/

namespace Sys2Proof.Machine

/-! ### What scanning one character can do -/

theorem appendInstr_ok {depth : Nat} {code code' : List Instr} {i : Instr} (h : appendInstr depth code i = .ok code') :
    code.length < depth ∧ code' = code ++ [i] := by
  unfold appendInstr at h
  split at h <;> cases h
  exact ⟨‹_›, rfl⟩

/-- Everything appending the instruction of a symbol can do: fold it into the last instruction, or append it. -/
inductive AppendCase (depth : Nat) (i : Instr) : List Instr → List Instr → Prop where
  | folded (front : List Instr) (last grown : Instr) (hg : foldInto i last = some grown) (h0 : grown.operand ≠ 0#29) :
      AppendCase depth i (front ++ [last]) (front ++ [grown])
  | appended (code : List Instr) (hd : code.length < depth) : AppendCase depth i code (code ++ [i])

theorem appendSymbol_cases {depth : Nat} {code code' : List Instr} {i : Instr}
    (h : appendSymbol depth code i = .ok code') : AppendCase depth i code code' := by
  unfold appendSymbol at h
  split at h
  · rename_i grown hfold
    obtain ⟨last, hlast, hg⟩ := Option.bind_eq_some_iff.1 hfold
    split at h <;> cases h
    have hcode : code.dropLast ++ [last] = code := List.dropLast_append_getLast? last hlast
    have hcase := AppendCase.folded (depth := depth) code.dropLast last grown hg ‹_›
    rwa [hcode] at hcase
  · obtain ⟨hd, rfl⟩ := appendInstr_ok h
    exact .appended code hd

/-- The code after a close: the close appended with the index `o` of the open it takes, and that open given the close's. -/
def closePair (code : List Instr) (o : Nat) : List Instr :=
  (code ++ [Instr.loopClose (BitVec.ofNat 29 o)]).set o (.loopOpen (BitVec.ofNat 29 code.length))

/-- Everything the scan of one character can do when it does not fail (R65, R66, R67). -/
inductive ScanCase (depth : Nat) (c : Char) (code : List Instr) : List Nat → List Instr → List Nat → Prop where
  | ignored (opens : List Nat) (ho : c ≠ '[') (hc : c ≠ ']') : ScanCase depth c code opens code opens
  | symbol (opens : List Nat) (i : Instr) (code' : List Instr) (ho : c ≠ '[') (hc : c ≠ ']')
      (hi : symbolInstr c = some i) (ha : AppendCase depth i code code') : ScanCase depth c code opens code' opens
  | opened (opens : List Nat) (hc : c = '[') (hd : code.length < depth) :
      ScanCase depth c code opens (code ++ [.loopOpen 0#29]) (code.length :: opens)
  | closed (o : Nat) (rest : List Nat) (hc : c = ']') (hd : code.length < depth) :
      ScanCase depth c code (o :: rest) (closePair code o) rest

/-- The inversion of the scan of one character. -/
theorem scanChar_cases {depth : Nat} {c : Char} {code code' : List Instr} {opens opens' : List Nat}
    (h : scanChar depth c code opens = .ok (code', opens')) : ScanCase depth c code opens code' opens' := by
  unfold scanChar at h
  split at h
  · split at h <;> cases h
    obtain ⟨hd, rfl⟩ := appendInstr_ok ‹_›
    exact .opened opens ‹_› hd
  · split at h
    · split at h
      · cases h
      · split at h <;> cases h
        obtain ⟨hd, rfl⟩ := appendInstr_ok ‹_›
        exact .closed _ _ ‹_› hd
    · split at h
      · cases h
        exact .ignored _ ‹_› ‹_›
      · split at h <;> cases h
        exact .symbol _ _ _ ‹_› ‹_› ‹_› (appendSymbol_cases ‹_›)

/-- The code and the pending opens that the scan holds after the text `seen` (R65). -/
inductive Scanned (depth : Nat) : List Char → List Instr → List Nat → Prop where
  | start : Scanned depth [] [] []
  | snoc {seen : List Char} {c : Char} {code code' : List Instr} {opens opens' : List Nat}
      (h : Scanned depth seen code opens) (hc : ScanCase depth c code opens code' opens') :
      Scanned depth (seen ++ [c]) code' opens'

/-- A scan that answers an image passes every beginning of the text, and ends with no open pending. -/
theorem scanSource_scanned {depth : Nat} {cs seen : List Char} {code image : List Instr} {opens : List Nat}
    (hs : Scanned depth seen code opens) (h : scanSource depth cs code opens = .ok image) :
    Scanned depth (seen ++ cs) image [] ∧ ∀ k, ∃ code' opens', Scanned depth (seen ++ cs.take k) code' opens' := by
  induction cs generalizing seen code opens with
  | nil =>
    cases opens <;> cases h
    exact ⟨by simpa using hs, fun k => ⟨_, _, by simpa using hs⟩⟩
  | cons c cs ih =>
    rw [scanSource] at h
    split at h
    · obtain ⟨hend, hparts⟩ := ih (hs.snoc (scanChar_cases ‹_›)) h
      rw [List.append_assoc, List.singleton_append] at hend
      refine ⟨hend, fun k => ?_⟩
      cases k with
      | zero => exact ⟨code, opens, by simpa using hs⟩
      | succ k => simpa using hparts k
    · cases h

theorem produce_scanned {p : Params} {source : List Char} {image : List Instr} (h : produce p source = .ok image) :
    Scanned p.imemDepth source image [] ∧ ∀ k, ∃ code opens, Scanned p.imemDepth (source.take k) code opens :=
  scanSource_scanned .start h

/-! ### A folded run -/

/-- A foldable symbol and the instruction of a run of it (R66). -/
structure Folds (c : Char) (run : Opnd → Instr) : Prop where
  notOpen : c ≠ '['
  notClose : c ≠ ']'
  first : symbolInstr c = some (run 1#29)
  grows : ∀ n, foldInto (run 1#29) (run n) = some (run (n + 1#29))
  operand : ∀ n, (run n).operand = n

theorem folds_plus : Folds '+' .incValue := ⟨by decide, by decide, rfl, fun _ => rfl, fun _ => rfl⟩
theorem folds_minus : Folds '-' .decValue := ⟨by decide, by decide, rfl, fun _ => rfl, fun _ => rfl⟩
theorem folds_right : Folds '>' .incPointer := ⟨by decide, by decide, rfl, fun _ => rfl, fun _ => rfl⟩
theorem folds_left : Folds '<' .decPointer := ⟨by decide, by decide, rfl, fun _ => rfl, fun _ => rfl⟩

theorem opnd_ofNat_toNat {n : Nat} (hn : n < 2 ^ 29) : (BitVec.ofNat 29 n).toNat = n := Nat.mod_eq_of_lt hn

theorem opnd_ofNat_ne_zero {n : Nat} (h0 : 0 < n) (hn : n < 2 ^ 29) : BitVec.ofNat 29 n ≠ 0#29 :=
  fun h => h0.ne' (by rw [← opnd_ofNat_toNat hn, h]; rfl)

/-- R66: a symbol after a run of it that a count still holds makes the count one more. -/
theorem Folds.scanChar_grows {c : Char} {run : Opnd → Instr} (h : Folds c run) (depth : Nat) {n : Nat}
    (hn : n + 1 < 2 ^ 29) :
    scanChar depth c [run (BitVec.ofNat 29 n)] [] = .ok ([run (BitVec.ofNat 29 (n + 1))], []) := by
  have hgrown : BitVec.ofNat 29 n + 1#29 = BitVec.ofNat 29 (n + 1) := (BitVec.ofNat_add n 1).symm
  have happend : appendSymbol depth [run (BitVec.ofNat 29 n)] (run 1#29) = .ok [run (BitVec.ofNat 29 (n + 1))] := by
    simp [appendSymbol, h.grows, h.operand, hgrown, opnd_ofNat_ne_zero n.succ_pos hn]
  simp only [scanChar, h.notOpen, h.notClose, if_false, h.first, happend]

theorem Folds.scanChar_first {c : Char} {run : Opnd → Instr} (h : Folds c run) {depth : Nat} (hd : 1 ≤ depth) :
    scanChar depth c [] [] = .ok ([run 1#29], []) := by
  have happend : appendSymbol depth [] (run 1#29) = .ok [run 1#29] := if_pos hd
  simp only [scanChar, h.notOpen, h.notClose, if_false, h.first, happend]

/-- R66: the rest of a run adds its length to the count. -/
theorem Folds.scanSource_run {c : Char} {run : Opnd → Instr} (h : Folds c run) (depth k : Nat) {n : Nat}
    (hn : n + k < 2 ^ 29) :
    scanSource depth (List.replicate k c) [run (BitVec.ofNat 29 n)] [] = .ok [run (BitVec.ofNat 29 (n + k))] := by
  induction k generalizing n with
  | zero => rfl
  | succ k ih =>
    rw [List.replicate_succ, scanSource, h.scanChar_grows depth (by omega)]
    simp only
    rw [ih (by omega), Nat.add_right_comm, Nat.add_assoc]

/-- R66: a run of `k` symbols gives one instruction with count `k`. -/
theorem Folds.produce_run {c : Char} {run : Opnd → Instr} (h : Folds c run) {p : Params} {k : Nat}
    (hp : 1 ≤ p.imemDepth) (hk : 1 ≤ k) (hlt : k < 2 ^ 29) :
    produce p (List.replicate k c) = .ok [run (BitVec.ofNat 29 k)] := by
  obtain ⟨k, rfl⟩ := Nat.exists_eq_add_of_le' hk
  rw [produce, List.replicate_succ, scanSource, h.scanChar_first hp]
  simp only
  rw [h.scanSource_run p.imemDepth k (n := 1) (by omega), Nat.add_comm 1 k]

/-- Settles O56: by induction on the run, for each of the four foldable symbols. -/
theorem foldedRunBecomesOneInstruction : Obligations.FoldedRunBecomesOneInstruction :=
  fun _ _ hp hk hlt => ⟨folds_plus.produce_run hp hk hlt, folds_minus.produce_run hp hk hlt,
    folds_right.produce_run hp hk hlt, folds_left.produce_run hp hk hlt⟩

/-! ### The balance of brackets -/

/-- R67: the opens of the text seen that no close has taken yet are the pending ones. -/
theorem Scanned.count_brackets {depth : Nat} {seen : List Char} {code : List Instr} {opens : List Nat}
    (h : Scanned depth seen code opens) : seen.count '[' = seen.count ']' + opens.length := by
  induction h with
  | start => rfl
  | snoc h hc ih =>
    rw [List.count_append, List.count_append]
    cases hc with
    | ignored _ ho hc => simpa [List.count_singleton, ho, hc] using ih
    | symbol _ i _ ho hc => simpa [List.count_singleton, ho, hc] using ih
    | opened opens hc => simp [hc, ih]; omega
    | closed o rest hc => simp [hc, ih]; omega

/-- Settles O57: the pending opens count the difference, at the end of the source and after each first part of it. -/
theorem onlyBalancedSourcesHaveAnImage : Obligations.OnlyBalancedSourcesHaveAnImage := by
  intro p source code h
  obtain ⟨hend, hparts⟩ := produce_scanned h
  refine ⟨hend.count_brackets, fun k => ?_⟩
  obtain ⟨code', opens, hk⟩ := hparts k
  rw [hk.count_brackets]
  exact Nat.le_add_right _ _

/-! ### The pairing invariant -/

/-- R58: a well-formed instruction is a bracket, or has a positive count. -/
theorem wellFormed_iff (i : Instr) : i.wellFormed = true ↔ (i.partner? = none → i.operand ≠ 0#29) := by
  cases i <;> simp [Instr.wellFormed, Instr.partner?, Instr.operand]

/-- R66: only a counted instruction folds, and stays one. -/
theorem foldInto_counted {i last grown : Instr} (h : foldInto i last = some grown) :
    last.partner? = none ∧ grown.partner? = none := by
  unfold foldInto at h
  split at h <;> cases h <;> exact ⟨rfl, rfl⟩

theorem symbolInstr_counted {c : Char} {i : Instr} (h : symbolInstr c = some i) :
    i.partner? = none ∧ i.operand = 1#29 := by
  unfold symbolInstr at h
  split_ifs at h <;> cases h <;> exact ⟨rfl, rfl⟩

/-- R68: the open at index `i` with target `t` names a later close that names it back, and every bracket strictly between them
has its partner strictly between them. -/
structure OpenPaired (code : List Instr) (i : Nat) (t : Opnd) : Prop where
  later : i < t.toNat
  partner : code[t.toNat]? = some (.loopClose (BitVec.ofNat 29 i))
  between : ∀ k u, i < k → k < t.toNat → code[k]?.bind Instr.partner? = some u → i < u ∧ u < t.toNat

/-- R68: the close at index `j` with target `t` names an earlier open that names it back. -/
structure ClosePaired (code : List Instr) (j : Nat) (t : Opnd) : Prop where
  earlier : t.toNat < j
  partner : code[t.toNat]? = some (.loopOpen (BitVec.ofNat 29 j))

/-- What the scan keeps: every bracket is paired but for the pending opens, which still have target 0. -/
structure WellScanned (depth : Nat) (code : List Instr) (opens : List Nat) : Prop where
  length : code.length ≤ depth
  counts : ∀ i ∈ code, i.wellFormed = true
  newestFirst : opens.Pairwise (· > ·)
  pending : ∀ o ∈ opens, code[o]? = some (.loopOpen 0#29)
  opened : ∀ i t, code[i]? = some (.loopOpen t) → i ∈ opens ∨ OpenPaired code i t
  closed : ∀ j t, code[j]? = some (.loopClose t) → ClosePaired code j t

theorem WellScanned.nil (depth : Nat) : WellScanned depth [] [] :=
  ⟨Nat.zero_le _, by simp, .nil, by simp, by simp, by simp⟩

theorem lt_length_of_getElem? {code : List Instr} {k : Nat} {x : Instr} (h : code[k]? = some x) : k < code.length :=
  (List.getElem?_eq_some_iff.1 h).1

/-- Between a paired open and its close no open is pending. -/
theorem OpenPaired.not_pending {code : List Instr} {i k : Nat} {t : Opnd} (h : OpenPaired code i t) (h1 : i < k)
    (h2 : k < t.toNat) : code[k]? ≠ some (.loopOpen 0#29) := by
  intro hk
  have hbetween := h.between k 0 h1 h2 (by rw [hk]; rfl)
  omega

/-- A list that keeps every entry of the code but the pending opens. -/
def KeepsPaired (code code' : List Instr) : Prop :=
  ∀ k < code.length, code[k]? ≠ some (.loopOpen 0#29) → code'[k]? = code[k]?

theorem OpenPaired.mono {code code' : List Instr} {i : Nat} {t : Opnd} (h : OpenPaired code i t)
    (hk : KeepsPaired code code') : OpenPaired code' i t where
  later := h.later
  partner := by rw [hk _ (lt_length_of_getElem? h.partner) (by simp [h.partner])]; exact h.partner
  between k u h1 h2 := by
    rw [hk k (h2.trans (lt_length_of_getElem? h.partner)) (h.not_pending h1 h2)]
    exact h.between k u h1 h2

theorem ClosePaired.mono {code code' : List Instr} {j : Nat} {t : Opnd} (h : ClosePaired code j t) (hj : j < 2 ^ 29)
    (hk : KeepsPaired code code') : ClosePaired code' j t where
  earlier := h.earlier
  partner := by
    have hne := opnd_ofNat_ne_zero (Nat.zero_lt_of_lt h.earlier) hj
    rw [hk _ (lt_length_of_getElem? h.partner) (by simp [h.partner, hne])]
    exact h.partner

/-- R65: a code with the same brackets at the same indexes is paired as before. -/
theorem WellScanned.of_sameBrackets {depth : Nat} {code code' : List Instr} {opens : List Nat}
    (h : WellScanned depth code opens) (hlen : code'.length ≤ depth) (hcounts : ∀ i ∈ code', i.wellFormed = true)
    (hsame : ∀ (k : Nat) (x : Instr), x.partner? ≠ none → (code'[k]? = some x ↔ code[k]? = some x)) :
    WellScanned depth code' opens where
  length := hlen
  counts := hcounts
  newestFirst := h.newestFirst
  pending o ho := (hsame o _ (by simp [Instr.partner?])).2 (h.pending o ho)
  opened i t hi := by
    obtain hp | hp := h.opened i t ((hsame i _ (by simp [Instr.partner?])).1 hi)
    · exact .inl hp
    · refine .inr ⟨hp.later, (hsame _ _ (by simp [Instr.partner?])).2 hp.partner, fun k u h1 h2 hu => ?_⟩
      obtain ⟨x, hx, hxu⟩ := Option.bind_eq_some_iff.1 hu
      exact hp.between k u h1 h2 (by rw [(hsame k x (by simp [hxu])).1 hx]; exact hxu)
  closed j t hj := by
    obtain ⟨hlt, hopen⟩ := h.closed j t ((hsame j _ (by simp [Instr.partner?])).1 hj)
    exact ⟨hlt, (hsame _ _ (by simp [Instr.partner?])).2 hopen⟩

theorem getElem?_concat_eq_some {code : List Instr} {i x : Instr} {k : Nat} :
    (code ++ [i])[k]? = some x ↔ code[k]? = some x ∨ (k = code.length ∧ x = i) := by
  obtain hlt | rfl | hgt := Nat.lt_trichotomy k code.length
  · simp [List.getElem?_append_left hlt, hlt.ne]
  · simp [eq_comm]
  · simp [List.getElem?_append_right hgt.le, List.getElem?_eq_none hgt.le, Nat.sub_ne_zero_of_lt hgt, hgt.ne']

/-- An instruction at the end that is no bracket adds no bracket. -/
theorem getElem?_concat_counted {code : List Instr} {i x : Instr} (hi : i.partner? = none) (hx : x.partner? ≠ none)
    (k : Nat) : (code ++ [i])[k]? = some x ↔ code[k]? = some x := by
  have hne : x ≠ i := fun h => hx (h ▸ hi)
  simp [getElem?_concat_eq_some, hne]

/-- R65, R66: the instruction of a symbol that is no bracket keeps the pairing. -/
theorem WellScanned.symbol {depth : Nat} {i : Instr} {code code' : List Instr} {opens : List Nat}
    (h : WellScanned depth code opens) (hi : i.partner? = none) (h1 : i.operand = 1#29)
    (ha : AppendCase depth i code code') : WellScanned depth code' opens := by
  cases ha with
  | folded front last grown hg h0 =>
    obtain ⟨hlast, hgrown⟩ := foldInto_counted hg
    have hfront : ∀ x ∈ front, x.wellFormed = true := fun x hx => h.counts x (List.mem_append_left _ hx)
    refine h.of_sameBrackets (by simpa using h.length)
      (List.forall_mem_append.2 ⟨hfront, List.forall_mem_singleton.2 ((wellFormed_iff grown).2 fun _ => h0)⟩) fun k x hx => ?_
    rw [getElem?_concat_counted hgrown hx, getElem?_concat_counted hlast hx]
  | appended _ hd =>
    have hwf : i.wellFormed = true := (wellFormed_iff i).2 fun _ => by rw [h1]; decide
    exact h.of_sameBrackets (by simpa using hd)
      (List.forall_mem_append.2 ⟨h.counts, List.forall_mem_singleton.2 hwf⟩) fun k x hx => getElem?_concat_counted hi hx k

/-- R67: an open is appended as the newest pending one. -/
theorem WellScanned.pushOpen {depth : Nat} {code : List Instr} {opens : List Nat} (h : WellScanned depth code opens)
    (hdepth : depth ≤ 2 ^ 29) (hd : code.length < depth) :
    WellScanned depth (code ++ [.loopOpen 0#29]) (code.length :: opens) := by
  have hkeeps : KeepsPaired code (code ++ [.loopOpen 0#29]) := fun k hk _ => List.getElem?_append_left hk
  exact
    { length := by simpa using hd
      counts := List.forall_mem_append.2 ⟨h.counts, List.forall_mem_singleton.2 rfl⟩
      newestFirst := List.pairwise_cons.2 ⟨fun o ho => lt_length_of_getElem? (h.pending o ho), h.newestFirst⟩
      pending := List.forall_mem_cons.2 ⟨List.getElem?_concat_length,
        fun o ho => getElem?_concat_eq_some.2 (.inl (h.pending o ho))⟩
      opened := fun i t hi => by
        obtain hi | ⟨rfl, -⟩ := getElem?_concat_eq_some.1 hi
        · exact (h.opened i t hi).imp (List.mem_cons_of_mem _) (·.mono hkeeps)
        · exact .inl List.mem_cons_self
      closed := fun j t hj => by
        obtain hj | ⟨-, he⟩ := getElem?_concat_eq_some.1 hj
        · exact (h.closed j t hj).mono (by have := lt_length_of_getElem? hj; omega) hkeeps
        · cases he }

/-- An open that a close names is not pending. -/
theorem WellScanned.paired_of_closed {depth : Nat} {code : List Instr} {opens : List Nat} (h : WellScanned depth code opens)
    (hdepth : depth ≤ 2 ^ 29) {j : Nat} {t : Opnd} (hj : code[j]? = some (.loopClose t)) :
    t.toNat < j ∧ t.toNat ∉ opens ∧ OpenPaired code t.toNat (BitVec.ofNat 29 j) ∧ (BitVec.ofNat 29 j).toNat = j := by
  obtain ⟨hlt, hopen⟩ := h.closed j t hj
  have hj29 : j < 2 ^ 29 := (lt_length_of_getElem? hj).trans_le (h.length.trans hdepth)
  have hnot : t.toNat ∉ opens := fun hp => by
    have he := (h.pending _ hp).symm.trans hopen
    exact opnd_ofNat_ne_zero (Nat.zero_lt_of_lt hlt) hj29 (by simpa using he.symm)
  exact ⟨hlt, hnot, (h.opened _ _ hopen).resolve_left hnot, opnd_ofNat_toNat hj29⟩

/-- R68: every bracket after the newest pending open is paired after it. -/
theorem WellScanned.after_newest {depth : Nat} {code : List Instr} {o : Nat} {rest : List Nat}
    (h : WellScanned depth code (o :: rest)) (hdepth : depth ≤ 2 ^ 29) {k u : Nat} (hk : o < k)
    (hu : code[k]?.bind Instr.partner? = some u) : o < u ∧ u < code.length := by
  obtain ⟨x, hx, hxu⟩ := Option.bind_eq_some_iff.1 hu
  have hklt := lt_length_of_getElem? hx
  obtain ⟨hnewest, -⟩ := List.pairwise_cons.1 h.newestFirst
  cases x with
  | loopOpen t =>
    cases hxu
    obtain hp | hp := h.opened k t hx
    · obtain rfl | hp := List.mem_cons.1 hp
      · exact absurd hk (lt_irrefl _)
      · exact absurd hk (hnewest k hp).le.not_gt
    · exact ⟨hk.trans hp.later, lt_length_of_getElem? hp.partner⟩
  | loopClose t =>
    cases hxu
    obtain ⟨hlt, hnot, hp, hkk⟩ := h.paired_of_closed hdepth hx
    refine ⟨?_, hlt.trans hklt⟩
    obtain hto | rfl | hot := Nat.lt_trichotomy t.toNat o
    · exact absurd (h.pending o List.mem_cons_self) (hp.not_pending hto (hk.trans_eq hkk.symm))
    · exact absurd List.mem_cons_self hnot
    · exact hot
  | incValue | decValue | incPointer | decPointer | read | write => cases hxu

theorem getElem?_closePair {code : List Instr} {o : Nat} (ho : o < code.length) (k : Nat) : (closePair code o)[k]? =
    if k = o then some (.loopOpen (BitVec.ofNat 29 code.length))
    else (code ++ [Instr.loopClose (BitVec.ofNat 29 o)])[k]? := by
  have hlt : o < (code ++ [Instr.loopClose (BitVec.ofNat 29 o)]).length := by simp; omega
  simp only [closePair, List.getElem?_set, hlt, if_true, eq_comm]

theorem getElem?_closePair_lt {code : List Instr} {o k : Nat} (ho : o < code.length) (hk : k < code.length) (hne : k ≠ o) :
    (closePair code o)[k]? = code[k]? := by
  rw [getElem?_closePair ho, if_neg hne, List.getElem?_append_left hk]

/-- R67: a close takes the newest pending open. -/
theorem WellScanned.popOpen {depth : Nat} {code : List Instr} {o : Nat} {rest : List Nat}
    (h : WellScanned depth code (o :: rest)) (hdepth : depth ≤ 2 ^ 29) (hd : code.length < depth) :
    WellScanned depth (closePair code o) rest := by
  obtain ⟨hnewest, hrest⟩ := List.pairwise_cons.1 h.newestFirst
  obtain ⟨hpend, hpending⟩ := List.forall_mem_cons.1 h.pending
  have ho := lt_length_of_getElem? hpend
  have hlen : (BitVec.ofNat 29 code.length).toNat = code.length := opnd_ofNat_toNat (hd.trans_le hdepth)
  have hoo : (BitVec.ofNat 29 o).toNat = o := opnd_ofNat_toNat (ho.trans (hd.trans_le hdepth))
  have hkeeps : KeepsPaired code (closePair code o) := fun k hk hne =>
    getElem?_closePair_lt ho hk fun he => hne (he ▸ hpend)
  have hopen : (closePair code o)[o]? = some (.loopOpen (BitVec.ofNat 29 code.length)) := by
    rw [getElem?_closePair ho, if_pos rfl]
  have hclose : (closePair code o)[code.length]? = some (.loopClose (BitVec.ofNat 29 o)) := by
    rw [getElem?_closePair ho, if_neg ho.ne', List.getElem?_concat_length]
  exact
    { length := by simpa [closePair] using hd
      counts := fun i hi => by
        obtain hi | rfl := List.mem_or_eq_of_mem_set hi
        · exact List.forall_mem_append.2 ⟨h.counts, List.forall_mem_singleton.2 rfl⟩ i hi
        · rfl
      newestFirst := hrest
      pending := fun o' ho' => by
        rw [getElem?_closePair_lt ho ((hnewest o' ho').trans ho) (hnewest o' ho').ne, hpending o' ho']
      opened := fun i t hi => by
        by_cases hio : i = o
        · subst hio
          obtain rfl : BitVec.ofNat 29 code.length = t := by simpa using hopen.symm.trans hi
          refine .inr ⟨by rwa [hlen], by rwa [hlen], fun k u h1 h2 hu => ?_⟩
          rw [hlen] at h2 ⊢
          rw [getElem?_closePair_lt ho h2 h1.ne'] at hu
          exact h.after_newest hdepth h1 hu
        · rw [getElem?_closePair ho, if_neg hio] at hi
          obtain hi | ⟨-, he⟩ := getElem?_concat_eq_some.1 hi
          · exact (h.opened i t hi).imp (List.mem_of_ne_of_mem hio) (·.mono hkeeps)
          · cases he
      closed := fun j t hj => by
        by_cases hjo : j = o
        · rw [hjo, hopen] at hj; cases hj
        · rw [getElem?_closePair ho, if_neg hjo] at hj
          obtain hj | ⟨rfl, he⟩ := getElem?_concat_eq_some.1 hj
          · exact (h.closed j t hj).mono (by have := lt_length_of_getElem? hj; omega) hkeeps
          · cases he
            exact ⟨by rwa [hoo], by rwa [hoo]⟩ }

/-- The scan keeps the pairing. -/
theorem Scanned.wellScanned {depth : Nat} (hdepth : depth ≤ 2 ^ 29) {seen : List Char} {code : List Instr}
    {opens : List Nat} (h : Scanned depth seen code opens) : WellScanned depth code opens := by
  induction h with
  | start => exact .nil depth
  | snoc _ hc ih =>
    cases hc with
    | ignored => exact ih
    | symbol _ i _ _ _ hi ha =>
      obtain ⟨hcounted, hone⟩ := symbolInstr_counted hi
      exact ih.symbol hcounted hone ha
    | opened _ _ hd => exact ih.pushOpen hdepth hd
    | closed _ _ _ hd => exact ih.popOpen hdepth hd

/-- R6: an image has at most 2^29 words, so an operand can hold every index. -/
theorem Params.imemDepth_le {p : Params} (h : p.ok = true) : p.imemDepth ≤ 2 ^ 29 := by
  simp only [Params.ok, Bool.and_eq_true, decide_eq_true_eq] at h
  omega

/-- Settles O58: the scan keeps every bracket paired but for the pending opens, and a produced image has none. -/
theorem producedImagesAreWellPaired : Obligations.ProducedImagesAreWellPaired := by
  intro p source code hp h
  have hscan := (produce_scanned h).1.wellScanned (Params.imemDepth_le hp)
  refine ⟨hscan.length, hscan.counts, fun i t hi => ?_, fun j t hj => ?_⟩
  · obtain ⟨hlater, hpartner, hbetween⟩ := (hscan.opened i t hi).resolve_left List.not_mem_nil
    exact ⟨hlater, hpartner, hbetween⟩
  · obtain ⟨hearlier, hpartner⟩ := hscan.closed j t hj
    exact ⟨hearlier, hpartner⟩

end Sys2Proof.Machine
end

section
/-! SUPPORT. The executor's cycle (R71 to R75), the boundary policies as the value and pointer instructions meet them (R77 to
R82), a START that fails a check (R103), and the step that ends a run (R83). -/

namespace Sys2Proof.Machine

/-! ### The executor's turn without an instruction -/

/-- Settles O8: the fetch finds no word. -/
theorem unwrittenWordStopsTheModel : Obligations.UnwrittenWordStopsTheModel := by
  intro s rest hturn hr hpc hw
  have hrun : (s.withTurns rest).runState = .running := hr
  have hlt : (s.withTurns rest).pc.toNat < (s.withTurns rest).progLen.toNat := hpc
  have hfetch : (s.withTurns rest).fetch? = none := hw
  rw [step_of_executorFirst hturn]
  simp only [executorTurn, hrun, runStep, Nat.not_le.2 hlt, if_false, hfetch]

/-- R75: past the last instruction the executor's turn is the normal end. -/
theorem executorTurn_of_pastEnd {s : State} (hr : s.runState = .running) (hpc : s.progLen.toNat ≤ s.pc.toNat) :
    executorTurn s = .next s.halt := by
  simp only [executorTurn, hr, runStep, hpc, if_true]

/-- R31: `STATUS.EXIT` is bit 2 of `STATUS`. -/
theorem status_exit_of_done {s : State} (h : s.runState = .done) : s.status.toNat / 4 % 2 = 0 := by
  rw [status_toNat, h]
  simp only [RunState.bits, RunState.exitBit, BitVec.toNat_ofNat]
  omega

/-- Settles O9: the turn is the normal end, which is a state in DONE. -/
theorem runEndsPastTheLastInstruction : Obligations.RunEndsPastTheLastInstruction := by
  intro s rest hturn hr hpc
  refine ⟨(s.withTurns rest).halt, ?_, rfl, status_exit_of_done rfl⟩
  rw [step_of_executorFirst hturn]
  exact executorTurn_of_pastEnd hr hpc

/-- R71: in every other `STATE` the executor's turn answers the state it found. -/
theorem executorTurn_of_not_running {s : State} (hr : s.runState ≠ .running) : executorTurn s = .next s := by
  cases h : s.runState with
  | running => exact absurd h hr
  | idle | done | fault => simp only [executorTurn, h]

/-- Settles O10: the turn of an executor outside a run. -/
theorem executorRestsOutsideARun : Obligations.ExecutorRestsOutsideARun := by
  intro s rest hturn hr
  rw [step_of_executorFirst hturn]
  exact executorTurn_of_not_running hr

/-! ### The boundary policies -/

/-- R81: the range holds no two values congruent modulo its size. -/
theorem eq_of_mem_range_of_dvd {lo hi cand r r' : Int} (hr : lo ≤ r ∧ r ≤ hi) (hr' : lo ≤ r' ∧ r' ≤ hi)
    (h : hi - lo + 1 ∣ r - cand) (h' : hi - lo + 1 ∣ r' - cand) : r' = r := by
  have hdvd : hi - lo + 1 ∣ r' - r := by simpa using dvd_sub h' h
  have hlt : |r' - r| < hi - lo + 1 := abs_lt.2 ⟨by omega, by omega⟩
  exact sub_eq_zero.1 (Int.eq_zero_of_abs_lt_dvd hdvd hlt)

/-- Settles O11: the candidate by its definition, and the policy function policy by policy. -/
theorem policyFunctionOfTheSpec : Obligations.PolicyFunctionOfTheSpec := by
  refine ⟨fun v n => ⟨rfl, rfl⟩, fun cand lo hi dir hle => ⟨fun hin pol => applyPolicy_in hin, fun hout => ?_⟩⟩
  have hmem := wrapped_mem cand hle
  have hdvd := wrapped_modEq cand lo hi
  exact ⟨applyPolicy_error hout, applyPolicy_saturate hout, applyPolicy_saturate hout, wrapped cand lo hi,
    applyPolicy_wrap hout, hmem.1, hmem.2, hdvd, fun r' hlo hhi h' => eq_of_mem_range_of_dvd hmem ⟨hlo, hhi⟩ hdvd h'⟩

/-- R78, R84, R85: a value the policy function answers is stored, and all but the cell is left alone. -/
theorem exec_value_frame {s : State} {dir : Dir} {n : Opnd} {v r : Int} (hn : n ≠ 0#29) (hv : s.cell? = some v)
    (hr : applyPolicy (candidate dir v n) s.valueMin s.valueMax s.valuePolicy dir = .ok r) :
    ∃ t, exec (valueInstr dir n) s = .next t ∧ t.cell? = some r ∧ ValueFrame s t :=
  ⟨_, exec_value_stores hn hv hr, State.cell?_setCell hv, valueFrame s r⟩

/-- R78, R89, R90: a pointer of the run's cells that the policy function answers is stored, and all but `PTR` is left alone. -/
theorem exec_pointer_frame {s : State} {dir : Dir} {n : Opnd} {r : Int} (hn : n ≠ 0#29)
    (hr : applyPolicy (candidate dir s.ptr.toNat n) 0 (s.cellCount.toNat - 1) s.pointerPolicy dir = .ok r)
    (hlo : 0 ≤ r) (hhi : r ≤ s.cellCount.toNat - 1) :
    ∃ t, exec (pointerInstr dir n) s = .next t ∧ (t.ptr.toNat : Int) = r ∧ PointerFrame s t :=
  ⟨_, exec_pointer_moves hn hr, State.setPtr_toNat (s := s) hlo hhi s.cellCount.isLt, pointerFrame s r⟩

/-- Settles O12: in range the policy function answers the candidate under every policy. -/
theorem inRangeCandidateIsStored : Obligations.InRangeCandidateIsStored :=
  ⟨fun _ _ _ _ hn hv hlo hhi => exec_value_frame hn hv (applyPolicy_in ⟨hlo, hhi⟩),
    fun _ _ _ hn hlo hhi => exec_pointer_frame hn (applyPolicy_in ⟨hlo, hhi⟩) hlo hhi⟩

theorem exec_value_raises {s : State} {dir : Dir} {n : Opnd} {v : Int} (hn : n ≠ 0#29) (hv : s.cell? = some v)
    (hr : applyPolicy (candidate dir v n) s.valueMin s.valueMax s.valuePolicy dir = .err) :
    exec (valueInstr dir n) s = .next (s.raise .valueRange (encode (valueInstr dir n))) := by
  rw [exec_value hn]
  simp only [valueStep, hv, hr]

theorem exec_pointer_raises {s : State} {dir : Dir} {n : Opnd} (hn : n ≠ 0#29)
    (hr : applyPolicy (candidate dir s.ptr.toNat n) 0 (s.cellCount.toNat - 1) s.pointerPolicy dir = .err) :
    exec (pointerInstr dir n) s = .next (s.raise .pointerRange (encode (pointerInstr dir n))) := by
  rw [exec_pointer hn]
  simp only [pointerStep, hr]

/-- Settles O13: the policy function answers an error, and the instruction takes the fault of its path. -/
theorem errorPolicyFaultsAndWritesNothing : Obligations.ErrorPolicyFaultsAndWritesNothing := by
  refine ⟨fun s dir n v hn hv hpol hout => ?_, fun s dir n hn hpol hout => ?_⟩
  · have herror : s.valuePolicy = some .error := by simp [State.valuePolicy_eq, hpol]
    exact exec_value_raises hn hv (herror ▸ applyPolicy_error hout)
  · have herror : s.pointerPolicy = some .error := by simp [State.pointerPolicy_eq, hpol]
    exact exec_pointer_raises hn (herror ▸ applyPolicy_error hout)

/-- R80 in the wording of its claim. -/
theorem saturated_eq_ite (lo hi : Int) (dir : Dir) : saturated lo hi dir = if dir = .up then hi else lo := by
  cases dir <;> rfl

theorem saturated_mem {lo hi : Int} (h : lo ≤ hi) (dir : Dir) : lo ≤ saturated lo hi dir ∧ saturated lo hi dir ≤ hi := by
  cases dir
  · exact ⟨h, le_refl hi⟩
  · exact ⟨le_refl lo, h⟩

/-- R80: moved from inside the range, a candidate can leave it only on the side of the direction. -/
theorem candidate_leaves_by_direction {lo hi v : Int} {dir : Dir} {n : Opnd} (hlo : lo ≤ v) (hhi : v ≤ hi)
    (hout : ¬(lo ≤ candidate dir v n ∧ candidate dir v n ≤ hi)) :
    (dir = .up → hi < candidate dir v n) ∧ (dir = .down → candidate dir v n < lo) := by
  cases dir with
  | up =>
    have hcand : candidate .up v n = v + n.toNat := rfl
    exact ⟨fun _ => by omega, nofun⟩
  | down =>
    have hcand : candidate .down v n = v - n.toNat := rfl
    exact ⟨nofun, fun _ => by omega⟩

/-- Settles O14: the policy function answers the bound of the direction, and the instruction stores it. -/
theorem saturatePolicyClampsByDirection : Obligations.SaturatePolicyClampsByDirection := by
  refine ⟨fun s dir n v hn hv hpol hout => ?_, fun s dir n hn hpol hpos hout => ⟨?_, fun hptr => ?_⟩⟩
  · have hsat : s.valuePolicy = some .saturate := by simp [State.valuePolicy_eq, hpol]
    obtain ⟨t, ht, hcell, hframe⟩ := exec_value_frame hn hv (hsat ▸ applyPolicy_saturate hout)
    rw [saturated_eq_ite] at hcell
    exact ⟨t, ht, hcell, hframe, fun hlo hhi => candidate_leaves_by_direction hlo hhi hout⟩
  · have hsat : s.pointerPolicy = some .saturate := by simp [State.pointerPolicy_eq, hpol]
    obtain ⟨hlo, hhi⟩ := saturated_mem (lo := 0) (hi := s.cellCount.toNat - 1) (by omega) dir
    obtain ⟨t, ht, hptr, hframe⟩ := exec_pointer_frame hn (hsat ▸ applyPolicy_saturate hout) hlo hhi
    rw [saturated_eq_ite] at hptr
    exact ⟨t, ht, by split_ifs at hptr ⊢ <;> omega, hframe⟩
  · exact candidate_leaves_by_direction (by omega) (by omega) hout

/-! ### A START that fails a check -/

/-- Settles O38: the failing case of a START, and the executor's turn in FAULT. -/
theorem startWithABadConfigurationFaults : Obligations.StartWithABadConfigurationFaults := by
  intro s value hp hv hr hc
  obtain ⟨-, hstart⟩ := startBeginsAFreshRun s value hp hv
  obtain ⟨t, ht, hpc, hptr, hrep, hfpc, hconfig, -, henv, -, hfails⟩ := hstart hr
  obtain ⟨hfault, hcode, hinfo, hmem⟩ := hfails hc
  have hrest : executorTurn t = .next t := executorTurn_of_not_running (by simp [hfault])
  exact ⟨t, ht, hfault, hcode, hfpc, hinfo, hpc, hptr, hrep, hmem, hconfig,
    by simp only [henv, hrest, and_self]⟩

/-! ### The step that ends a run -/

/-- R104: an instruction that changes `STATE` takes a fault, and does nothing else. -/
theorem exec_eq_raise {i : Instr} {s t : State} (h : exec i s = .next t) (hne : t.runState ≠ s.runState) :
    ∃ code info, t = s.raise code info := by
  cases exec_cases h with
  | illegal | valueFault | pointerFault => exact ⟨_, _, rfl⟩
  | valueStored | pointerMoved | readStall | writeStall | openSkips | openEnters | closeRepeats | closeLeaves =>
    exact absurd rfl hne
  | readKept n tok s' _ hs =>
    obtain ⟨e, rfl, -⟩ := takeToken_env hs
    exact absurd (by simp) hne
  | readStored n tok s' v _ hs =>
    obtain ⟨e, rfl, -⟩ := takeToken_env hs
    exact absurd (by simp) hne
  | writeBeat => exact absurd (by simp) hne

/-- R75, R104: the executor's turn ends a run by the normal end or by a fault. -/
theorem executorTurn_ends_run {s t : State} (hr : s.runState = .running) (h : executorTurn s = .next t)
    (hend : t.runState ≠ .running) : t = s.halt ∨ ∃ code info, t = (s.raise code info).noteBoundary := by
  obtain ⟨hn, -⟩ | ⟨-, -, rfl⟩ | ⟨-, -, w, u, -, hu, rfl⟩ := executorTurn_next h
  · exact absurd hr hn
  · exact .inl rfl
  · have hne : u.runState ≠ s.runState := by rwa [hr, ← State.noteBoundary_runState]
    obtain ⟨code, info, rfl⟩ := exec_eq_raise hu hne
    exact .inr ⟨code, info, rfl⟩

/-- The boundaries a host may read are no part of what is observed of a run. -/
theorem runEnd?_noteBoundary (s : State) : s.noteBoundary.runEnd? = s.runEnd? := by
  unfold State.noteBoundary
  split <;> rfl

/-- R20, R24: in a run the cells of the observation are those START cleared, each with a value. -/
theorem State.RunOk.runCells_eq {s : State} (h : s.RunOk) :
    (List.range s.env.runCells).map s.mem.cell? =
      (List.range s.cellCount.toNat).map fun a => some (s.mem.rawCell a) := by
  rw [h.runCells]
  refine List.map_congr_left fun a ha => (Memory.cell?_eq_some _).2 ⟨?_, rfl⟩
  rw [h.live]
  exact List.mem_range.1 ha

/-- Settles O55: neither the normal end nor a fault changes what is observed, but for the fault record. -/
theorem lastStepOnlyEndsTheRun : Obligations.LastStepOnlyEndsTheRun := by
  intro s t hr h hend
  have hcells : s.Inv → _ := fun hinv => (hinv.run hr).runCells_eq
  obtain rfl | ⟨code, info, rfl⟩ := executorTurn_ends_run hr h hend
  · exact ⟨_, rfl, rfl, rfl, rfl, rfl, rfl, hcells, rfl, rfl, rfl, by simp [RunState.exitBit]⟩
  · exact ⟨_, runEnd?_noteBoundary _, rfl, rfl, rfl, rfl, rfl, hcells, by simp, by simp, by simp,
      by simp [RunState.exitBit]⟩

end Sys2Proof.Machine
end

section
/-! SUPPORT. The value family (R84 to R86) and its folding law (R87), with the corner cases of `Wrap` on both paths (R84, R85,
R89, R90). -/

namespace Sys2Proof.Machine

/-! ### `Wrap` from the bounds -/

theorem opnd_toNat_pos {n : Opnd} (h : n ≠ 0#29) : 0 < n.toNat :=
  Nat.pos_of_ne_zero fun h0 => h (BitVec.eq_of_toNat_eq h0)

/-- R10: the non-negative remainder of a number below 0, counted from the top of the range. -/
theorem neg_emod_eq_sub {n m : Int} (hn : 0 < n) (hm : 0 < m) : -n % m = m - 1 - (n - 1) % m := by
  obtain ⟨k, rfl⟩ : ∃ k : Nat, n = k + 1 := ⟨(n - 1).toNat, by omega⟩
  rw [add_sub_cancel_right]
  exact Int.negSucc_emod k hm

/-- R84, R89: moved up from the top of the range. -/
theorem wrapped_up_from_max (lo hi : Int) (n : Opnd) :
    wrapped (candidate .up hi n) lo hi = lo + (n.toNat - 1) % (hi - lo + 1) := by
  have hcand : candidate .up hi n - lo = n.toNat - 1 + (hi - lo + 1) := by simp only [candidate]; ring
  rw [wrapped, hcand, Int.add_emod_right, add_comm]

/-- R85, R90: moved down from the bottom of the range. -/
theorem wrapped_down_from_min {lo hi : Int} (hle : lo ≤ hi) {n : Opnd} (hn : n ≠ 0#29) :
    wrapped (candidate .down lo n) lo hi = hi - (n.toNat - 1) % (hi - lo + 1) := by
  have hcand : candidate .down lo n - lo = -n.toNat := by simp only [candidate]; ring
  have hpos := opnd_toNat_pos hn
  rw [wrapped, hcand, neg_emod_eq_sub (by omega) (by omega)]
  ring

/-- R81: `Wrap` answers the wrapped candidate, which a candidate of the range is already. -/
theorem applyPolicy_wrap_eq (cand lo hi : Int) (dir : Dir) :
    applyPolicy cand lo hi (some .wrap) dir = .ok (wrapped cand lo hi) := by
  by_cases hin : lo ≤ cand ∧ cand ≤ hi
  · rw [applyPolicy_in hin, wrapped_self hin]
  · exact applyPolicy_wrap hin

/-- R81: the cell after a value instruction under `Wrap`. -/
theorem cell?_of_value_wrap {s t : State} {dir : Dir} {n : Opnd} {v : Int} (hn : n ≠ 0#29)
    (hpol : s.policy.toNat % 4 = 2) (hv : s.cell? = some v) (h : exec (valueInstr dir n) s = .next t) :
    t.cell? = some (wrapped (candidate dir v n) s.valueMin s.valueMax) := by
  have hwrap : s.valuePolicy = some .wrap := by simp [State.valuePolicy_eq, hpol]
  rw [exec_value_stores hn hv (hwrap ▸ applyPolicy_wrap_eq _ _ _ _)] at h
  cases h
  exact State.cell?_setCell hv

/-- R81, R91: `PTR` after a pointer instruction under `Wrap`. -/
theorem ptr_of_pointer_wrap {s t : State} {dir : Dir} {n : Opnd} (hn : n ≠ 0#29)
    (hpol : s.policy.toNat / 4 % 4 = 2) (hpos : 0 < s.cellCount.toNat) (h : exec (pointerInstr dir n) s = .next t) :
    (t.ptr.toNat : Int) = wrapped (candidate dir s.ptr.toNat n) 0 (s.cellCount.toNat - 1) := by
  have hwrap : s.pointerPolicy = some .wrap := by simp [State.pointerPolicy_eq, hpol]
  rw [exec_pointer_moves hn (hwrap ▸ applyPolicy_wrap_eq _ _ _ _)] at h
  cases h
  obtain ⟨hlo, hhi⟩ := wrapped_mem (candidate dir s.ptr.toNat n) (lo := 0) (hi := s.cellCount.toNat - 1) (by omega)
  exact State.setPtr_toNat (s := s) hlo hhi s.cellCount.isLt

/-- Settles O16: the wrapped candidate of each of the four moves in closed form. -/
theorem wrapAtTheBounds : Obligations.WrapAtTheBounds := by
  refine ⟨fun s t n hn _ hpol hv ht => ?_, fun s t n hn hle hpol hv ht => ?_, fun s t n hn hpol hptr ht => ?_,
    fun s t n hn hpol hptr hpos ht => ?_⟩
  · rw [cell?_of_value_wrap (dir := .up) hn hpol hv ht, wrapped_up_from_max]
  · rw [cell?_of_value_wrap (dir := .down) hn hpol hv ht, wrapped_down_from_min hle hn]
  · have ht := ptr_of_pointer_wrap (dir := .up) hn hpol (by omega) ht
    have hlast : (s.ptr.toNat : Int) = s.cellCount.toNat - 1 := by omega
    rw [hlast, wrapped_up_from_max, sub_zero, sub_add_cancel, zero_add] at ht
    zify [opnd_toNat_pos hn]
    exact ht
  · have ht := ptr_of_pointer_wrap (dir := .down) hn hpol hpos ht
    have hfirst : (s.ptr.toNat : Int) = 0 := by simp [hptr]
    rw [hfirst, wrapped_down_from_min (by omega) hn, sub_zero, sub_add_cancel] at ht
    have hmod := Nat.mod_lt (n.toNat - 1) hpos
    have hcast : (((n.toNat - 1) % s.cellCount.toNat : Nat) : Int) = (n.toNat - 1) % s.cellCount.toNat := by
      rw [Int.natCast_emod, Nat.cast_pred (opnd_toNat_pos hn)]
    omega

/-! ### What a value instruction can do -/

/-- A value instruction checks its legality and runs its body, whatever its direction (R84, R85). -/
theorem exec_valueInstr (dir : Dir) (n : Opnd) (s : State) :
    exec (valueInstr dir n) s = guardLegal (valueInstr dir n) s (valueStep (valueInstr dir n) dir n s) := by
  cases dir <;> rfl

/-- Everything a value instruction can do: a fault, or a value in the range stored in a cell of the run. -/
theorem exec_value_next {s t : State} {dir : Dir} {n : Opnd} (hle : s.valueMin ≤ s.valueMax)
    (h : exec (valueInstr dir n) s = .next t) :
    (∃ code info, t = s.raise code info) ∨
    ∃ v r, s.cell? = some v ∧ s.valueMin ≤ r ∧ r ≤ s.valueMax ∧ t = (s.setCell r).advance := by
  rw [exec_valueInstr] at h
  obtain ⟨-, rfl⟩ | ⟨-, h⟩ := guardLegal_next h
  · exact .inl ⟨_, _, rfl⟩
  · obtain ⟨v, hv, ⟨r, hr, rfl⟩ | ⟨-, rfl⟩⟩ := valueStep_next h
    · obtain ⟨hlo, hhi⟩ := applyPolicy_ok_mem hle hr
      exact .inr ⟨v, r, hv, hlo, hhi, rfl⟩
    · exact .inl ⟨_, _, rfl⟩

/-- Settles O17: a fault writes no memory, and the value stored lies in the range. -/
theorem valueInstructionLeavesTheCellInRange : Obligations.ValueInstructionLeavesTheCellInRange := by
  intro s t dir n hr hle ht
  obtain ⟨code, info, rfl⟩ | ⟨v, r, hv, hlo, hhi, rfl⟩ := exec_value_next hle ht
  · exact .inl ⟨rfl, rfl⟩
  · exact .inr ⟨hr, r, State.cell?_setCell hv, hlo, hhi⟩

/-! ### The folding law -/

/-- R69: a sum of two counts that fits the operand field is a count. -/
theorem opnd_add_ne_zero {a b : Opnd} (ha : a ≠ 0#29) (hab : a.toNat + b.toNat < 2 ^ 29) : a + b ≠ 0#29 := by
  intro h
  have hsum : (a + b).toNat = a.toNat + b.toNat := BitVec.toNat_add_of_lt hab
  have hpos := opnd_toNat_pos ha
  rw [h, BitVec.toNat_zero] at hsum
  omega

/-- R77: moving on from a candidate. -/
theorem candidate_candidate (dir : Dir) (v : Int) {a b : Opnd} (hab : a.toNat + b.toNat < 2 ^ 29) :
    candidate dir (candidate dir v a) b = candidate dir v (a + b) := by
  have hsum : (a + b).toNat = a.toNat + b.toNat := BitVec.toNat_add_of_lt hab
  cases dir <;> simp only [candidate, hsum] <;> omega

/-- R77: a move is an addition of a number the value moved does not matter for. -/
theorem candidate_eq_add (dir : Dir) (v : Int) (n : Opnd) : candidate dir v n = v + candidate dir 0 n := by
  cases dir <;> simp only [candidate] <;> omega

/-- R87 under `Wrap`: the congruent value is the same whether it is taken after each move or once. -/
theorem wrapped_candidate_wrapped (dir : Dir) (lo hi v : Int) {a b : Opnd} (hab : a.toNat + b.toNat < 2 ^ 29) :
    wrapped (candidate dir (wrapped (candidate dir v a) lo hi) b) lo hi = wrapped (candidate dir v (a + b)) lo hi := by
  rw [candidate_eq_add dir (wrapped _ lo hi), wrapped_add, ← candidate_eq_add, candidate_candidate dir v hab]

/-- R80: moved from inside the range, `Saturate` answers the candidate clamped to the range. -/
theorem applyPolicy_saturate_from_range {lo hi v : Int} (dir : Dir) (n : Opnd) (hlo : lo ≤ v) (hhi : v ≤ hi) :
    applyPolicy (candidate dir v n) lo hi (some .saturate) dir = .ok (max lo (min hi (candidate dir v n))) := by
  by_cases hin : lo ≤ candidate dir v n ∧ candidate dir v n ≤ hi
  · rw [applyPolicy_in hin, min_eq_right hin.2, max_eq_right hin.1]
  · obtain ⟨hup, hdown⟩ := candidate_leaves_by_direction hlo hhi hin
    rw [applyPolicy_saturate hin]
    cases dir with
    | up => rw [min_eq_left (hup rfl).le, max_eq_right (hlo.trans hhi)]; rfl
    | down => rw [max_eq_left ((min_le_right _ _).trans (hdown rfl).le)]; rfl

/-- R87 under `Saturate`: two moves in one direction end at the bound exactly when their sum does. -/
theorem clamp_candidate_clamp {lo hi v : Int} (dir : Dir) {a b : Opnd} (hlo : lo ≤ v) (hhi : v ≤ hi)
    (hab : a.toNat + b.toNat < 2 ^ 29) :
    max lo (min hi (candidate dir (max lo (min hi (candidate dir v a))) b)) =
      max lo (min hi (candidate dir v (a + b))) := by
  have hsum : (a + b).toNat = a.toNat + b.toNat := BitVec.toNat_add_of_lt hab
  cases dir <;> simp only [candidate, hsum] <;> omega

/-- R87 for the policy function: the second move's answer is the answer of the whole move. -/
theorem applyPolicy_folds {lo hi v : Int} {pol : Option Policy} (dir : Dir) {a b : Opnd}
    (hab : a.toNat + b.toNat < 2 ^ 29)
    (hpol : pol = some .wrap ∨ (pol = some .saturate ∧ lo ≤ v ∧ v ≤ hi)) :
    ∃ r₁ r, applyPolicy (candidate dir v a) lo hi pol dir = .ok r₁ ∧
      applyPolicy (candidate dir r₁ b) lo hi pol dir = .ok r ∧
      applyPolicy (candidate dir v (a + b)) lo hi pol dir = .ok r := by
  obtain rfl | ⟨rfl, hlo, hhi⟩ := hpol
  · refine ⟨_, _, applyPolicy_wrap_eq _ _ _ _, applyPolicy_wrap_eq _ _ _ _, ?_⟩
    rw [applyPolicy_wrap_eq, wrapped_candidate_wrapped dir lo hi v hab]
  · have hclamp := max_le (hlo.trans hhi) (min_le_left hi (candidate dir v a))
    refine ⟨_, _, applyPolicy_saturate_from_range dir a hlo hhi,
      applyPolicy_saturate_from_range dir b (le_max_left _ _) hclamp, ?_⟩
    rw [applyPolicy_saturate_from_range dir (a + b) hlo hhi, clamp_candidate_clamp dir hlo hhi hab]

/-- Settles O19: each instruction stores what the policy function answers, and the policy function folds. -/
theorem foldingLawUnderWrapAndSaturate : Obligations.FoldingLawUnderWrapAndSaturate := by
  intro s dir a b v ha hb hab hv hle hpol
  have hpolicy : s.valuePolicy = some .wrap ∨ (s.valuePolicy = some .saturate ∧ s.valueMin ≤ v ∧ v ≤ s.valueMax) :=
    hpol.imp (fun h => by simp [State.valuePolicy_eq, h]) (.imp_left fun h => by simp [State.valuePolicy_eq, h])
  obtain ⟨r₁, r, hfirst, hsecond, hwhole⟩ := applyPolicy_folds dir hab hpolicy
  have hv₁ : (s.setCell r₁).advance.cell? = some r₁ := State.cell?_setCell hv
  exact ⟨_, _, _, r, exec_value_stores ha hv hfirst, exec_value_stores hb hv₁ hsecond,
    exec_value_stores (opnd_add_ne_zero ha hab) hv hwhole, State.cell?_setCell hv₁, State.cell?_setCell hv⟩

/-- R87: a move in one direction that ends in the range was in it halfway. -/
theorem candidate_mem_of_add {lo hi v : Int} {dir : Dir} {a b : Opnd} (hlo : lo ≤ v) (hhi : v ≤ hi)
    (hab : a.toNat + b.toNat < 2 ^ 29) (h : lo ≤ candidate dir v (a + b) ∧ candidate dir v (a + b) ≤ hi) :
    lo ≤ candidate dir v a ∧ candidate dir v a ≤ hi := by
  have hsum : (a + b).toNat = a.toNat + b.toNat := BitVec.toNat_add_of_lt hab
  cases dir <;> simp only [candidate, hsum] at h ⊢ <;> omega

/-- R82: a move in the range is stored and the run goes on. -/
theorem exec_value_in {s : State} {dir : Dir} {n : Opnd} {v : Int} (hn : n ≠ 0#29) (hv : s.cell? = some v)
    (hin : s.valueMin ≤ candidate dir v n ∧ candidate dir v n ≤ s.valueMax) :
    exec (valueInstr dir n) s = .next (s.setCell (candidate dir v n)).advance :=
  exec_value_stores hn hv (applyPolicy_in hin)

/-- R79: under `Error` a move out of the range faults. -/
theorem exec_value_out {s : State} {dir : Dir} {n : Opnd} {v : Int} (hn : n ≠ 0#29) (hv : s.cell? = some v)
    (hpol : s.policy.toNat % 4 = 0) (hout : ¬(s.valueMin ≤ candidate dir v n ∧ candidate dir v n ≤ s.valueMax)) :
    exec (valueInstr dir n) s = .next (s.raise .valueRange (encode (valueInstr dir n))) :=
  errorPolicyFaultsAndWritesNothing.1 s dir n v hn hv hpol hout

/-- Settles O20: the whole move in the range, and the first move out of it or only the second. -/
theorem foldingLawUnderError : Obligations.FoldingLawUnderError := by
  intro s dir a b v ha hb hab hr hv hlo hhi hpol
  have hab0 := opnd_add_ne_zero ha hab
  have hv₁ : (s.setCell (candidate dir v a)).advance.cell? = some (candidate dir v a) := State.cell?_setCell hv
  have hsum := candidate_candidate dir v hab
  by_cases hwhole : s.valueMin ≤ candidate dir v (a + b) ∧ candidate dir v (a + b) ≤ s.valueMax
  · have hfirst := candidate_mem_of_add hlo hhi hab hwhole
    refine ⟨_, _, exec_value_in ha hv hfirst, exec_value_in hab0 hv hwhole, fun _ => ?_, fun h => absurd hwhole h⟩
    exact ⟨_, exec_value_in hb hv₁ (hsum ▸ hwhole), hr, hr, hsum ▸ State.cell?_setCell hv₁, State.cell?_setCell hv⟩
  · by_cases hfirst : s.valueMin ≤ candidate dir v a ∧ candidate dir v a ≤ s.valueMax
    · refine ⟨_, _, exec_value_in ha hv hfirst, exec_value_out hab0 hv hpol hwhole, fun h => absurd h hwhole, fun _ => ?_⟩
      exact ⟨rfl, hv, rfl, .inr ⟨hr, _, exec_value_out hb hv₁ hpol (hsum ▸ hwhole), rfl, hv₁, rfl⟩⟩
    · exact ⟨_, _, exec_value_out ha hv hpol hfirst, exec_value_out hab0 hv hpol hwhole, fun h => absurd h hwhole,
        fun _ => ⟨rfl, hv, rfl, .inl ⟨rfl, hv, rfl⟩⟩⟩

end Sys2Proof.Machine
end

section
/-! SUPPORT. The folding law of `Read` and `Write` (R96): a beat does the same whatever the count, `PC` and `REP`, so the split
form and the folded form differ in these two registers alone. -/

namespace Sys2Proof.Machine

/-! ### Executions in a row -/

theorem execTimes_succ_eq_next {i : Instr} {k : Nat} {s u : State} :
    execTimes i (k + 1) s = .next u ↔ ∃ t, exec i s = .next t ∧ execTimes i k t = .next u := by
  rw [execTimes]
  cases exec i s <;> simp

theorem execTimes_add {i : Instr} {j k : Nat} {s t : State} (h : execTimes i j s = .next t) :
    execTimes i (j + k) s = execTimes i k t := by
  induction j generalizing s with
  | zero => cases h; rw [Nat.zero_add]
  | succ j ih =>
    obtain ⟨u, hu, h⟩ := execTimes_succ_eq_next.1 h
    rw [Nat.succ_add]
    simp only [execTimes, hu]
    exact ih h

theorem execTimes_sameConfig {i : Instr} {k : Nat} {s t : State} (h : execTimes i k s = .next t) : s.SameConfig t := by
  induction k generalizing s with
  | zero => cases h; exact .refl t
  | succ k ih =>
    obtain ⟨u, hu, h⟩ := execTimes_succ_eq_next.1 h
    exact (exec_sameConfig hu).1.trans (ih h)

/-! ### What a beat does beside counting -/

/-- The state with `PC` and `REP` cleared: what is left of it when the progress of an instruction (R92) is left out. -/
def State.clearProgress (s : State) : State := { s with pc := 0#32, rep := 0#29 }

@[simp] theorem State.clearProgress_mem (s : State) : s.clearProgress.mem = s.mem := rfl
@[simp] theorem State.clearProgress_ptr (s : State) : s.clearProgress.ptr = s.ptr := rfl
@[simp] theorem State.clearProgress_env (s : State) : s.clearProgress.env = s.env := rfl
@[simp] theorem State.clearProgress_cell? (s : State) : s.clearProgress.cell? = s.cell? := rfl
@[simp] theorem State.clearProgress_clearProgress (s : State) : s.clearProgress.clearProgress = s.clearProgress := rfl
@[simp] theorem State.clearProgress_setCell (s : State) (v : Int) :
    (s.clearProgress.setCell v).clearProgress = (s.setCell v).clearProgress := rfl
@[simp] theorem State.clearProgress_emit (s : State) (b : Byte) :
    (s.clearProgress.emit b).clearProgress = (s.emit b).clearProgress := rfl

@[simp] theorem State.clearProgress_tokenValue (s : State) (tok : Token) :
    s.clearProgress.tokenValue tok = s.tokenValue tok := by
  cases tok <;> rfl

@[simp] theorem State.clearProgress_beatEnd (s : State) (n : Opnd) : (s.beatEnd n).clearProgress = s.clearProgress := by
  unfold State.beatEnd
  split <;> rfl

/-- States that agree but for their progress, and agree in `REP`, differ in `PC` alone. -/
theorem State.eq_withPc_of_clearProgress {s t : State} (h : s.clearProgress = t.clearProgress) (hrep : s.rep = t.rep) :
    s = { t with pc := s.pc } :=
  calc s = { s.clearProgress with pc := s.pc, rep := s.rep } := rfl
    _ = { t.clearProgress with pc := s.pc, rep := t.rep } := by rw [h, hrep]
    _ = { t with pc := s.pc } := rfl

theorem onNext_eq_next {f : State → State} {o : Host.Outcome State Fault Refusal} {u : State} :
    onNext f o = .next u ↔ ∃ t, o = .next t ∧ f t = u := by
  cases o <;> simp [onNext]

/-- R92: an instruction whose one execution reads neither its count nor the progress, and changes beside the progress the same
parts of the state whatever they are. -/
def BeatIgnoresProgress (f : Opnd → Instr) : Prop :=
  ∀ (n m : Opnd) (s t : State), n ≠ 0#29 → m ≠ 0#29 → s.clearProgress = t.clearProgress →
    onNext State.clearProgress (exec (f n) s) = onNext State.clearProgress (exec (f m) t)

theorem takeToken_clearProgress (s : State) :
    s.clearProgress.takeToken = s.takeToken.map fun p => (p.1, p.2.clearProgress) := by
  simp only [State.takeToken, Option.map_map]
  rfl

theorem storeBeat_clearProgress (n m : Opnd) (s : State) (o : Option Int) :
    onNext State.clearProgress (storeBeat n s o) = onNext State.clearProgress (storeBeat m s.clearProgress o) := by
  cases o with
  | none => simp [storeBeat, onNext]
  | some v => by_cases hp : s.ptr.toNat < s.mem.tapeLive <;> simp [storeBeat, hp, onNext]

theorem readBeat_clearProgress (n m : Opnd) (s : State) :
    onNext State.clearProgress (readBeat n s) = onNext State.clearProgress (readBeat m s.clearProgress) := by
  simp only [readBeat, takeToken_clearProgress]
  cases s.takeToken with
  | none => rfl
  | some p =>
    simp only [Option.map_some, State.clearProgress_tokenValue]
    cases p.2.tokenValue p.1 with
    | none => rfl
    | some o => exact storeBeat_clearProgress n m p.2 o

theorem writeBeat_clearProgress (n m : Opnd) (s : State) :
    onNext State.clearProgress (writeBeat n s) = onNext State.clearProgress (writeBeat m s.clearProgress) := by
  cases hv : s.cell? with
  | none => simp [writeBeat, hv, onNext]
  | some v => cases hr : s.env.ready <;> simp [writeBeat, hv, hr, onNext]

theorem beatIgnoresProgress_read : BeatIgnoresProgress .read := by
  intro n m s t hn hm h
  rw [exec_read hn, exec_read hm, readBeat_clearProgress n n s, h, ← readBeat_clearProgress m n t]

theorem beatIgnoresProgress_write : BeatIgnoresProgress .write := by
  intro n m s t hn hm h
  rw [exec_write hn, exec_write hm, writeBeat_clearProgress n n s, h, ← writeBeat_clearProgress m n t]

/-- The same number of beats, counted towards two counts, leaves states that agree but for their progress. -/
theorem BeatIgnoresProgress.execTimes_agree {f : Opnd → Instr} (hf : BeatIgnoresProgress f) {n m : Opnd} (hn : n ≠ 0#29)
    (hm : m ≠ 0#29) {k : Nat} {s t u : State} (h : s.clearProgress = t.clearProgress)
    (hs : execTimes (f n) k s = .next u) :
    ∃ w, execTimes (f m) k t = .next w ∧ u.clearProgress = w.clearProgress := by
  induction k generalizing s t with
  | zero => cases hs; exact ⟨t, rfl, h⟩
  | succ k ih =>
    obtain ⟨s', hs', hs⟩ := execTimes_succ_eq_next.1 hs
    have hbeat := hf n m s t hn hm h
    rw [hs'] at hbeat
    obtain ⟨t', ht', h'⟩ := onNext_eq_next.1 hbeat.symm
    obtain ⟨w, hw, hu⟩ := ih h'.symm hs
    exact ⟨w, execTimes_succ_eq_next.2 ⟨t', ht', hw⟩, hu⟩

/-! ### The folding law -/

/-- R92, R96: where `Ready k` says that `k` beats can be made from a state, a run of all of an instruction's beats advances
`PC`, clears `REP`, and leaves the rest of the beats to be made. -/
def RunsToCompletion (f : Opnd → Instr) (Ready : Nat → State → Prop) : Prop :=
  ∀ (n : Opnd) (k : Nat) (s : State), n ≠ 0#29 → Ready (n.toNat + k) s →
    ∃ t, execTimes (f n) n.toNat s = .next t ∧ t.rep = 0#29 ∧ t.pc = s.pc + 1#32 ∧ Ready k t

/-- R96 for such an instruction: the beats of the two parts are beats of the whole. -/
theorem RunsToCompletion.splits {f : Opnd → Instr} {Ready : Nat → State → Prop} (hrun : RunsToCompletion f Ready)
    (hf : BeatIgnoresProgress f) {s : State} {a b : Opnd} (ha : a ≠ 0#29) (hb : b ≠ 0#29)
    (hab : a.toNat + b.toNat < 2 ^ 29) (hs : Ready (a.toNat + b.toNat) s) :
    ∃ t₁ t₂ t₃, execTimes (f a) a.toNat s = .next t₁ ∧ execTimes (f b) b.toNat t₁ = .next t₂ ∧
      execTimes (f (a + b)) (a + b).toNat s = .next t₃ ∧ t₂ = { t₃ with pc := t₃.pc + 1#32 } ∧ t₃.pc = s.pc + 1#32 := by
  have hsum : (a + b).toNat = a.toNat + b.toNat := BitVec.toNat_add_of_lt hab
  have hab0 := opnd_add_ne_zero ha hab
  obtain ⟨t₁, h₁, -, hpc₁, hready⟩ := hrun a b.toNat s ha hs
  obtain ⟨t₂, h₂, hrep₂, hpc₂, -⟩ := hrun b 0 t₁ hb hready
  obtain ⟨t₃, h₃, hrep₃, hpc₃, -⟩ := hrun (a + b) 0 s hab0 (by rwa [hsum])
  obtain ⟨u, hu, hmid⟩ := hf.execTimes_agree ha hab0 rfl h₁
  obtain ⟨w, hw, hend⟩ := hf.execTimes_agree hb hab0 hmid h₂
  have hwhole : execTimes (f (a + b)) (a + b).toNat s = .next w := by rw [hsum, execTimes_add hu, hw]
  obtain rfl : w = t₃ := by rw [hwhole] at h₃; cases h₃; rfl
  have hpc : t₂.pc = w.pc + 1#32 := by rw [hpc₂, hpc₁, hpc₃]
  exact ⟨t₁, t₂, w, h₁, h₂, h₃, hpc ▸ State.eq_withPc_of_clearProgress hend (hrep₂.trans hrep₃.symm), hpc₃⟩

/-- R93: no beat is done, and `k` beats of `Read` find a token. -/
structure ReadReady (k : Nat) (s : State) : Prop where
  rep : s.rep = 0#29
  tokens : ∀ j, j < k → (s.env.token? j).isSome = true
  cell : ∃ v, s.cell? = some v
  eof : s.epField < 5

/-- R95: no beat is done, and every beat of `Write` is accepted. -/
structure WriteReady (s : State) : Prop where
  rep : s.rep = 0#29
  cell : ∃ v, s.cell? = some v
  ready : s.env.ready = true

/-- The tokens on offer as a list. -/
theorem exists_tokens {e : Env} {n : Nat} (h : ∀ k, k < n → (e.token? k).isSome = true) :
    ∃ toks : List Token, toks.length = n ∧ ∀ k, k < toks.length → e.token? k = toks[k]? := by
  refine ⟨(List.range n).map fun k => (e.token? k).getD .eof, by simp, fun k hk => ?_⟩
  replace hk : k < n := by simpa using hk
  obtain ⟨tok, htok⟩ := Option.isSome_iff_exists.1 (h k hk)
  simp [htok, hk]

theorem runsToCompletion_read : RunsToCompletion .read ReadReady := by
  intro n k s hn hs
  obtain ⟨v, hv⟩ := hs.cell
  obtain ⟨toks, hlen, htoks⟩ := exists_tokens (e := s.env) (n := n.toNat) fun j hj => hs.tokens j (by omega)
  obtain ⟨t, ht, hinput, -, -, hcell, -, -, -, hlast⟩ := readTakesExactlyNTokens s n toks v hn hs.rep htoks hlen.le hv hs.eof
  obtain ⟨hrep, hpc⟩ := hlast hlen
  rw [hlen] at ht hinput
  exact ⟨t, ht, hrep, hpc, hrep, fun j hj => by rw [hinput]; exact hs.tokens _ (by omega), ⟨_, hcell⟩,
    by rw [State.epField, (execTimes_sameConfig ht).policy]; exact hs.eof⟩

theorem runsToCompletion_write : RunsToCompletion .write fun _ => WriteReady := by
  intro n k s hn hs
  obtain ⟨v, hv⟩ := hs.cell
  obtain ⟨t, ht, henv, hmem, hptr, -, hlast⟩ := writeEmitsExactlyNCopies s n n.toNat v hn hs.rep le_rfl hv hs.ready
  obtain ⟨hrep, hpc⟩ := hlast rfl
  exact ⟨t, ht, hrep, hpc, hrep, ⟨v, by rwa [State.cell?, hmem, hptr]⟩, by rw [henv]; exact hs.ready⟩

/-- Settles O27: each part runs to its end, and the beats of the two parts are those of the whole. -/
theorem readAndWriteMaySplit : Obligations.ReadAndWriteMaySplit :=
  ⟨fun _ _ _ v ha hb hab hrep htokens hv hep =>
      runsToCompletion_read.splits beatIgnoresProgress_read ha hb hab ⟨hrep, htokens, ⟨v, hv⟩, hep⟩,
    fun _ _ _ v ha hb hab hrep hv hready =>
      runsToCompletion_write.splits beatIgnoresProgress_write ha hb hab ⟨hrep, ⟨v, hv⟩, hready⟩⟩

end Sys2Proof.Machine
end

section
/-! SUPPORT. The loop family (R97 to R99): where a legal bracket goes by its zero test, an illegal one, and the two readings of a
taken bracket. -/

namespace Sys2Proof.Machine

/-! ### The new `PC` as a number -/

theorem State.advance_eq_ofNat (s : State) : s.advance = { s with pc := BitVec.ofNat 32 (s.pc.toNat + 1) } := by
  rw [State.advance, BitVec.ofNat_add, BitVec.ofNat_toNat, BitVec.setWidth_eq]

theorem State.jumpPast_eq_ofNat (s : State) (t : Opnd) :
    s.jumpPast t = { s with pc := BitVec.ofNat 32 (t.toNat + 1) } := by
  rw [State.jumpPast, BitVec.ofNat_add, BitVec.ofNat_toNat]

/-! ### The two ways of a bracket -/

theorem bracketStep_taken {taken : Int → Bool} (t : Opnd) {s : State} {v : Int} (hv : s.cell? = some v)
    (h : taken v = true) : bracketStep taken t s = .next (s.jumpPast t) := by
  simp only [bracketStep, hv, h, if_true]

theorem bracketStep_not_taken {taken : Int → Bool} (t : Opnd) {s : State} {v : Int} (hv : s.cell? = some v)
    (h : taken v = false) : bracketStep taken t s = .next s.advance := by
  simp [bracketStep, hv, h]

section
variable {s : State} {t : Opnd} {v : Int}

theorem exec_loopOpen_skips (h1 : s.pc.toNat < t.toNat) (h2 : t.toNat < s.progLen.toNat) (hv : s.cell? = some 0) :
    exec (.loopOpen t) s = .next (s.jumpPast t) :=
  (exec_loopOpen h1 h2).trans (bracketStep_taken t hv rfl)

theorem exec_loopOpen_enters (h1 : s.pc.toNat < t.toNat) (h2 : t.toNat < s.progLen.toNat) (hv : s.cell? = some v)
    (hne : v ≠ 0) : exec (.loopOpen t) s = .next s.advance :=
  (exec_loopOpen h1 h2).trans (bracketStep_not_taken t hv (by simp [cellIsZero, hne]))

theorem exec_loopClose_repeats (h : t.toNat < s.pc.toNat) (hv : s.cell? = some v) (hne : v ≠ 0) :
    exec (.loopClose t) s = .next (s.jumpPast t) :=
  (exec_loopClose h).trans (bracketStep_taken t hv (by simp [cellIsZero, hne]))

theorem exec_loopClose_leaves (h : t.toNat < s.pc.toNat) (hv : s.cell? = some 0) :
    exec (.loopClose t) s = .next s.advance :=
  (exec_loopClose h).trans (bracketStep_not_taken t hv rfl)

end

/-- Settles O28: the open skips or enters by the zero test; an illegal one is the general illegal word. -/
theorem loopOpenSkipsOnZero : Obligations.LoopOpenSkipsOnZero := by
  refine fun s t => ⟨fun v h1 h2 hv => ?_, fun h => ?_, ?_⟩
  · by_cases hz : v = 0
    · subst hz
      rw [exec_loopOpen_skips h1 h2 hv, State.jumpPast_eq_ofNat, if_pos rfl]
    · rw [exec_loopOpen_enters h1 h2 hv hz, State.advance_eq_ofNat, if_neg hz]
  · exact (illegalWordsFaultExactly s (.loopOpen t)).1 (.inr (.inl ⟨t, rfl, h⟩))
  · simpa [Instr.opcode, Instr.operand] using (Laws.EncodingFields.loopOpen t).1

/-- Settles O29: the close repeats or leaves by the zero test; an illegal one is the general illegal word. -/
theorem loopCloseRepeatsOnNonZero : Obligations.LoopCloseRepeatsOnNonZero := by
  refine fun s t => ⟨fun v h hv => ?_, fun h => ?_, ?_⟩
  · by_cases hz : v = 0
    · subst hz
      rw [exec_loopClose_leaves h hv, State.advance_eq_ofNat, if_pos rfl]
    · rw [exec_loopClose_repeats h hv hz, State.jumpPast_eq_ofNat, if_neg hz]
  · exact (illegalWordsFaultExactly s (.loopClose t)).1 (.inr (.inr ⟨t, rfl, h.not_gt⟩))
  · simpa [Instr.opcode, Instr.operand] using (Laws.EncodingFields.loopClose t).1

/-! ### The two readings of a taken bracket -/

/-- R99: `PC` set to the target of a bracket is that index, since an operand is narrower than `PC`. -/
theorem target_toNat (t : Opnd) : (t.setWidth 32 : Word).toNat = t.toNat :=
  BitVec.toNat_setWidth_of_le (by decide)

/-- R99: jumping past an index is going to it and on from it. -/
theorem State.advance_at_target (s : State) (t : Opnd) : State.advance { s with pc := t.setWidth 32 } = s.jumpPast t := rfl

/-- Settles O30: a taken bracket jumps past its partner, and the partner, given the same cell, goes on from where it stands. -/
theorem bothReadingsOfABracketAgree : Obligations.BothReadingsOfABracketAgree := by
  refine ⟨fun s t j v ht hj hlen hv hne => ?_, fun s t i ht hlen hi hv => ?_⟩
  · have hforward : (t.setWidth 32 : Word).toNat < j.toNat := by rw [target_toNat, ← hj]; exact ht
    rw [exec_loopClose_repeats ht hv hne, ← State.advance_at_target]
    exact exec_loopOpen_enters hforward hlen hv hne
  · have hbackward : i.toNat < (t.setWidth 32 : Word).toNat := by rw [target_toNat, ← hi]; exact ht
    rw [exec_loopOpen_skips ht hlen hv, ← State.advance_at_target]
    exact exec_loopClose_leaves hbackward hv

end Sys2Proof.Machine
end

section
/-! SUPPORT. Faults (R102 to R105): the one fault a legal instruction can raise, what a faulting step leaves behind, and START's
checks in the order of their table. -/

namespace Sys2Proof.Machine

/-! ### The fault of a legal instruction -/

/-- R105: the fault the `Error` policy makes of an instruction's out-of-range candidate; none for those that have no
candidate. -/
def rangeFault? : Instr → Option FaultCode
  | .incValue _ | .decValue _ => some .valueRange
  | .incPointer _ | .decPointer _ => some .pointerRange
  | .read _ | .write _ | .loopOpen _ | .loopClose _ => none

@[simp] theorem rangeFault?_valueInstr (dir : Dir) (n : Opnd) : rangeFault? (valueInstr dir n) = some .valueRange := by
  cases dir <;> rfl

@[simp] theorem rangeFault?_pointerInstr (dir : Dir) (n : Opnd) :
    rangeFault? (pointerInstr dir n) = some .pointerRange := by
  cases dir <;> rfl

theorem family_of_rangeFault? {i : Instr} {code : FaultCode} (h : rangeFault? i = some code) :
    (∃ dir n, i = valueInstr dir n ∧ code = .valueRange) ∨ ∃ dir n, i = pointerInstr dir n ∧ code = .pointerRange := by
  cases i with
  | incValue n => cases h; exact .inl ⟨.up, n, rfl, rfl⟩
  | decValue n => cases h; exact .inl ⟨.down, n, rfl, rfl⟩
  | incPointer n => cases h; exact .inr ⟨.up, n, rfl, rfl⟩
  | decPointer n => cases h; exact .inr ⟨.down, n, rfl, rfl⟩
  | read | write | loopOpen | loopClose => cases h

theorem takeToken_runState {s s' : State} {tok : Token} (h : s.takeToken = some (tok, s')) : s'.runState = s.runState := by
  obtain ⟨e, rfl, -⟩ := takeToken_env h
  rfl

/-- R104, R105: a legal instruction leaves `STATE` alone or takes its own family's fault, with its own word. -/
theorem exec_next_of_legal {s t : State} {i : Instr} (hl : s.legal i = true) (h : exec i s = .next t) :
    t.runState = s.runState ∨ ∃ code, rangeFault? i = some code ∧ t = s.raise code (encode i) := by
  cases exec_cases h with
  | illegal _ hn => rw [hl] at hn; cases hn
  | valueFault dir n => exact .inr ⟨_, rangeFault?_valueInstr dir n, rfl⟩
  | pointerFault dir n => exact .inr ⟨_, rangeFault?_pointerInstr dir n, rfl⟩
  | valueStored | pointerMoved | readStall | writeStall | openSkips | openEnters | closeRepeats | closeLeaves =>
    exact .inl rfl
  | readKept _ _ _ _ hs | readStored _ _ _ _ _ hs => exact .inl (by simp [takeToken_runState hs])
  | writeBeat => exact .inl (by simp)

/-! ### What a fault writes -/

/-- R31: in FAULT the low bits of `STATUS` read `STATE` 3 and `EXIT` 1. -/
theorem status_low_of_fault {s : State} (h : s.runState = .fault) : s.status.toNat % 8 = 7 := by
  rw [status_toNat, h]
  simp only [RunState.bits, RunState.exitBit, BitVec.toNat_ofNat]
  omega

/-- Settles O33: an illegal instruction is not run, and a legal one that changes `STATE` takes its family's fault. -/
theorem faultsArePrecise : Obligations.FaultsArePrecise := by
  intro s t i hr h hf
  have hstatus := status_low_of_fault hf
  rw [illegalHere_iff, Bool.not_eq_false]
  cases hl : s.legal i with
  | false =>
    rw [exec_of_illegal hl] at h
    cases h
    exact ⟨_, rfl, fun _ => rfl, nofun, hstatus⟩
  | true =>
    obtain hkeeps | ⟨code, hcode, rfl⟩ := exec_next_of_legal hl h
    · rw [hr, hf] at hkeeps
      cases hkeeps
    · refine ⟨_, rfl, nofun, fun _ => ?_, hstatus⟩
      obtain ⟨dir, n, hi, rfl⟩ | ⟨dir, n, hi, rfl⟩ := family_of_rangeFault? hcode
      · exact .inl ⟨dir, n, hi, rfl⟩
      · exact .inr ⟨dir, n, hi, rfl⟩

/-- Settles O34: the run goes on, or the fault is the one of the instruction's family. -/
theorem eachFamilyRaisesItsOwnFault : Obligations.EachFamilyRaisesItsOwnFault := by
  intro s t i hr hlegal h
  rw [illegalHere_iff, Bool.not_eq_false] at hlegal
  obtain hkeeps | ⟨code, hcode, rfl⟩ := exec_next_of_legal hlegal h
  · rw [hr] at hkeeps
    exact ⟨fun _ _ _ => .inl hkeeps, fun _ _ _ => .inl hkeeps, fun _ _ => hkeeps⟩
  · refine ⟨?_, ?_, ?_⟩
    · rintro dir n rfl
      rw [rangeFault?_valueInstr] at hcode
      cases hcode
      exact .inr ⟨rfl, rfl⟩
    · rintro dir n rfl
      rw [rangeFault?_pointerInstr] at hcode
      cases hcode
      exact .inr ⟨rfl, rfl⟩
    · rintro n (rfl | rfl | rfl | rfl) <;> cases hcode

/-! ### START's checks -/

/-- Settles O36: each reserved encoding is the number the table gives its field, and the other checks are the same. -/
theorem configurationChecksInOrder : Obligations.ConfigurationChecksInOrder := configCause_eq_firstFailingCheck

end Sys2Proof.Machine
end

section
/-! SUPPORT. Reset (R116) and the launch (R117 to R119): a START that passes its checks meets the launch premises, and the word
placed outside a run is the image of such a launch. -/

namespace Sys2Proof.Machine

/-! ### Reset -/

/-- Settles O41: reset is the reset state with the memories and the outside world put back. -/
theorem resetKeepsTheMemoriesAndTheStreams : Obligations.ResetKeepsTheMemoriesAndTheStreams := fun _ => rfl

/-! ### The launch premises -/

theorem Memory.cell?_clearCells (m : Memory) {n a : Nat} (ha : a < n) : (m.clearCells n).cell? a = some 0 := by
  simp [Memory.cell?_eq_some, ha]

theorem start_of_passedChecks {s : State} (hr : s.runState ≠ .running) (hc : s.firstFailingCheck = 0) :
    s.start = { s.clearRun with mem := s.mem.clearCells s.cellCount.toNat, runState := .running } := by
  rw [← configCause_eq_firstFailingCheck] at hc
  obtain ⟨hrun, -⟩ | ⟨-, -, he⟩ | ⟨-, hne, -⟩ := start_cases s
  · exact absurd hrun hr
  · exact he
  · exact absurd hc hne

/-- R117, R119: START establishes P1 and P2; the checks, the image and the input of P3 to P5 it finds and leaves. -/
theorem State.Launched.of_start {s : State} {image : List Word} {input : Nat → Option Token}
    (hr : s.runState ≠ .running) (hc : s.firstFailingCheck = 0) (hlen : s.progLen.toNat = image.length)
    (himage : ∀ a, a < image.length → s.mem.word? a = image[a]?) (hinput : ∀ k, s.env.token? k = input k) :
    s.start.Launched image input := by
  rw [start_of_passedChecks hr hc]
  exact
    { running := rfl, pc := rfl, ptr := rfl, rep := rfl
      cells := fun _ ha => s.mem.cell?_clearCells ha
      checks := hc, progLen := hlen, image := himage, input := hinput }

/-- Settles O60: the write is a START, and a START that passes its checks launches. -/
theorem startMeetsTheLaunchPremises : Obligations.StartMeetsTheLaunchPremises := by
  intro s value image input hp hv hr hc hlen himage hinput
  rw [hostAct_start hp hv]
  exact .of_start hr hc hlen himage hinput

/-! ### The word placed after reset -/

/-- The plan of turns is no part of the launch premises. -/
theorem State.Launched.withTurns {s : State} {image : List Word} {input : Nat → Option Token}
    (h : s.Launched image input) (turns : List Turn) : (s.withTurns turns).Launched image input :=
  { h with }

/-- R118: placing a word outside a run is loading a one-word image and writing START. -/
theorem launch_outside_run {s : State} (hr : s.runState ≠ .running) (w : Word) : s.launch w =
    { s.withTurns (.executor :: s.env.turns) with mem := s.mem.setWord 0 w, progLen := 1#32 }.start := by
  cases h : s.runState with
  | running => exact absurd h hr
  | idle | done | fault => simp only [State.launch, h]

theorem State.Launched.of_launch {s : State} (hr : s.runState ≠ .running)
    (hc : { s with progLen := 1#32 }.firstFailingCheck = 0) (w : Word) :
    (s.launch w).Launched [w] s.env.token? := by
  rw [launch_outside_run hr]
  refine .of_start hr hc rfl (fun a ha => ?_) fun _ => rfl
  obtain rfl : a = 0 := Nat.lt_one_iff.1 ha
  simp

theorem start_turns (s : State) : s.start.env.turns = s.env.turns := by
  obtain ⟨-, h⟩ | ⟨-, -, h⟩ | ⟨-, -, h⟩ := start_cases s
  · rw [h]
  · rw [h]; rfl
  · rw [h]; rfl

/-- R72, R119: the executor's first turn of a launched run executes the first word of the image. -/
theorem State.Launched.executorTurn_eq {s : State} {w : Word} {image : List Word} {input : Nat → Option Token}
    (h : s.Launched (w :: image) input) : executorTurn s = onNext State.noteBoundary (exec (decode w) s) := by
  have hpos : 0 < (w :: image).length := Nat.succ_pos _
  have hpc : s.pc.toNat = 0 := by rw [h.pc]; rfl
  refine executorTurn_of_word h.running ?_ ?_
  · rw [hpc, h.progLen]
    exact hpos
  · rw [hpc, h.image 0 hpos]
    rfl

/-- Settles O7: reset's configuration passes its checks, so the placed word is launched, and the planned turn runs it. -/
theorem placedWordRunsFirstAfterReset : Obligations.PlacedWordRunsFirstAfterReset := by
  intro w hw
  rw [State.withFetchWord, Nat.mod_eq_of_lt hw]
  generalize BitVec.ofNat 32 w = word
  have hidle : State.reset.runState ≠ .running := by decide
  have hrun := (State.Launched.of_launch hidle (by decide) word).withTurns []
  have hturns : (State.reset.launch word).env.turns = [.executor] := by rw [launch_outside_run hidle, start_turns]; rfl
  have hcells : (State.reset.launch word).cellCount = 30000#32 := by
    rw [launch_outside_run hidle, (sameConfig_start _).cellCount]; rfl
  refine ⟨_, (step_of_executorFirst (.inr hturns)).trans hrun.executorTurn_eq, hrun.running, hrun.pc, hrun.ptr, hrun.rep,
    BitVec.eq_of_toNat_eq hrun.progLen, hrun.image 0 Nat.one_pos, fun a ha => hrun.cells a ?_⟩
  rw [State.withTurns_cellCount, hcells]
  exact ha

end Sys2Proof.Machine
end
